-- ==== Sys2Proof/Word.lean ====
section
/-! DEFINITION. The bit-vector types of the Tiny16 core. -/

namespace Sys2Proof

/-- A `u16`: a register slot, an immediate, an arithmetic result (R6, R10). -/
abbrev Word := BitVec 16

/-- A `u8`: one byte of the instruction buffer (R9, R10, R50). -/
abbrev Byte := BitVec 8

/-- A register index as the register file's ports carry it, 4 bits wide (R28, R76, D25).
The sixteen values are not all legal operands: see `legalReg`. -/
abbrev RegIdx := BitVec 4

end Sys2Proof
end

