-- ==== Sys2Proof/Config.lean ====
section
/-! DEFINITION. The fixed parameters of R8. `BUF_LEN` and `PC_BITS` are OPEN there (D2): the buffer
length is a field of the state and the pc a natural number, so neither stands here.
The spec leaves no value of an instruction open, so there is no opaque constant (INVENTORY.md). -/

namespace Sys2Proof.Config

/-- N, the number of slots of the register file (R7, R20; log 9). -/
def numSlots : Nat := 11

/-- The index of the FLAGS slot; an operand index of this or more is illegal (R8, R22). -/
def flagsIndex : Nat := 10

/-- GP0, the fixed quotient target of every division (R24, R150). -/
def quotientReg : RegIdx := 0

/-- GP1, the fixed remainder target of every division (R24, R150). -/
def remainderReg : RegIdx := 1

/-- The opcode byte of the terminator EXIT (R77, R170). -/
def exitOpcode : Byte := 255

end Sys2Proof.Config
end

