-- ==== Sys2Proof/Syntax.lean ====
section
/-! DEFINITION. The instructions, one constructor per row of spec/opcode_table.json, and the fatal
errors the decoder can raise in place of an instruction (R39, R190). -/

namespace Sys2Proof

/-- The three instruction formats of R70. -/
inductive Format where
  /-- format I: `op, imm16(LE), reg` (R71) -/
  | immediate
  /-- format R: `op, srcReg, dstReg` (R72) -/
  | register
  /-- format N: `op` alone (R73) -/
  | none
deriving DecidableEq, Repr

/-- The 15 recognized opcodes, by name (R77). -/
inductive Op where
  | movi | movr
  | addi | addr | subi | subr
  | muli | mulr | imuli | imulr
  | divi | divr | idivi | idivr
  | exit
deriving DecidableEq, Repr

/-- An instruction with its operands, in the order of its encoding (R71, R72, R82, R86).
Format I takes the immediate and the sole register, format R the source and the destination. -/
inductive Instr where
  | movi (imm : Word) (reg : RegIdx)
  | movr (src dst : RegIdx)
  | addi (imm : Word) (reg : RegIdx)
  | addr (src dst : RegIdx)
  | subi (imm : Word) (reg : RegIdx)
  | subr (src dst : RegIdx)
  | muli (imm : Word) (reg : RegIdx)
  | mulr (src dst : RegIdx)
  | imuli (imm : Word) (reg : RegIdx)
  | imulr (src dst : RegIdx)
  | divi (imm : Word) (reg : RegIdx)
  | divr (src dst : RegIdx)
  | idivi (imm : Word) (reg : RegIdx)
  | idivr (src dst : RegIdx)
  | exit
deriving DecidableEq, Repr

/-- Which operand an illegal-register error names (R39, R193). -/
inductive RegRole where
  /-- the source byte of format R -/
  | source
  /-- the destination byte of format R -/
  | destination
  /-- the one register byte of format I -/
  | sole
deriving DecidableEq, Repr

/-- A fatal error with what it records (R39, R191 to R193). An illegal-register error keeps the
opcode too, because R194 reports it as `err_op`. -/
inductive FatalError where
  /-- R191: the byte at the pc is no opcode. -/
  | unrecognizedOpcode (op : Byte)
  /-- R192: fewer bytes remain than the instruction needs; both counts take in the opcode byte. -/
  | truncated (op : Byte) (required remaining : Nat)
  /-- R193: a register byte of 10 or more. -/
  | illegalRegister (op : Byte) (role : RegRole) (value : Byte)
deriving DecidableEq, Repr

/-- What decoding the bytes at the pc gives: a descriptor or an error (R81, R82). -/
inductive Decoded where
  | instr (i : Instr)
  | raise (e : FatalError)
deriving DecidableEq, Repr

end Sys2Proof
end

