-- ==== Sys2Proof/WellFormed.lean ====
section
/-! DEFINITION. Which instructions are well formed: every register index names an operand slot (R22, R82). -/

namespace Sys2Proof

/-- A legal register operand is an index in 0..9 (R22); FLAGS, index 10, is not one. -/
def legalReg (i : RegIdx) : Bool := decide (i.toNat < Config.flagsIndex)

/-- Every register index of the instruction is legal, which R82 says of every descriptor.
An immediate may be any u16 (R80). -/
def Instr.wf : Instr → Bool
  | .movi _ r | .addi _ r | .subi _ r | .muli _ r | .imuli _ r | .divi _ r | .idivi _ r => legalReg r
  | .movr s d | .addr s d | .subr s d | .mulr s d | .imulr s d | .divr s d | .idivr s d =>
      legalReg s && legalReg d
  | .exit => true

end Sys2Proof
end

