-- ==== Sys2Proof/Decode.lean ====
section
/-! DEFINITION. The instruction decoder (R70 to R83) and, after it, the encoder written from the same
tables. Decoding is total on any bytes and rejects by the names of R190. -/

namespace Sys2Proof

/-! ## The opcode map -/

/-- The opcode byte of each instruction (R77; decimal, R78, log 10). -/
def Op.code : Op → Byte
  | .movi => 20 | .movr => 21
  | .addi => 30 | .addr => 31 | .subi => 32 | .subr => 33
  | .muli => 34 | .mulr => 35 | .imuli => 36 | .imulr => 37
  | .divi => 38 | .divr => 39 | .idivi => 40 | .idivr => 41
  | .exit => Config.exitOpcode

/-- The closed opcode set, in the order of R77. -/
def allOps : List Op :=
  [.movi, .movr, .addi, .addr, .subi, .subr, .muli, .mulr, .imuli, .imulr,
   .divi, .divr, .idivi, .idivr, .exit]

/-- The instruction an opcode byte selects by its whole value; none for the 241 others (R77, R79). -/
def opOfByte (b : Byte) : Option Op := allOps.find? fun o => o.code == b

/-- The format of each opcode (R70, R77). -/
def Op.format : Op → Format
  | .movi | .addi | .subi | .muli | .imuli | .divi | .idivi => .immediate
  | .movr | .addr | .subr | .mulr | .imulr | .divr | .idivr => .register
  | .exit => .none

/-- The length of each format in bytes (R70). -/
def Format.length : Format → Nat
  | .immediate => 4
  | .register => 3
  | .none => 1

/-- `LEN(op)`: the length is a function of the opcode alone (R74). -/
def Op.len (o : Op) : Nat := o.format.length

/-! ## Operands -/

/-- `imm = zext_16(imm_lo) | (zext_16(imm_hi) << 8)`: little-endian, not sign-extended (R54, R75). -/
def assembleImm (lo hi : Byte) : Word := lo.setWidth 16 ||| (hi.setWidth 16 <<< 8)

/-- Step 5 of R81 for one register byte: the whole byte is checked, then narrowed to the port
index (R76, D25). The error names the opcode, the role and the byte (R193, R194). -/
def decodeReg (o : Op) (role : RegRole) (r : Byte) (k : RegIdx → Decoded) : Decoded :=
  if r.toNat < Config.flagsIndex then k (r.setWidth 4) else .raise (.illegalRegister o.code role r)

/-- The truncation error of an opcode followed by `present` operand bytes (R192, D23). -/
def truncatedAfter (o : Op) (present : Nat) : Decoded :=
  .raise (.truncated o.code o.len (1 + present))

/-- Format I operand bytes `imm_lo imm_hi reg` (R71, R81). -/
def decodeImmForm (o : Op) (mk : Word → RegIdx → Instr) : List Byte → Decoded
  | lo :: hi :: r :: _ => decodeReg o .sole r fun i => .instr (mk (assembleImm lo hi) i)
  | short => truncatedAfter o short.length

/-- Format R operand bytes `src dst`; the source is checked first (R72, R81, R195; log 6). -/
def decodeRegForm (o : Op) (mk : RegIdx → RegIdx → Instr) : List Byte → Decoded
  | s :: d :: _ => decodeReg o .source s fun i => decodeReg o .destination d fun j => .instr (mk i j)
  | short => truncatedAfter o short.length

/-- Steps 4 and 5 of R81: the instruction that opcode `o` and the bytes after it spell. -/
def decodeOperands (o : Op) (bs : List Byte) : Decoded :=
  match o with
  | .movi => decodeImmForm o .movi bs
  | .movr => decodeRegForm o .movr bs
  | .addi => decodeImmForm o .addi bs
  | .addr => decodeRegForm o .addr bs
  | .subi => decodeImmForm o .subi bs
  | .subr => decodeRegForm o .subr bs
  | .muli => decodeImmForm o .muli bs
  | .mulr => decodeRegForm o .mulr bs
  | .imuli => decodeImmForm o .imuli bs
  | .imulr => decodeRegForm o .imulr bs
  | .divi => decodeImmForm o .divi bs
  | .divr => decodeRegForm o .divr bs
  | .idivi => decodeImmForm o .idivi bs
  | .idivr => decodeRegForm o .idivr bs
  | .exit => .instr .exit

/-! ## The decoder -/

/-- Steps 1 to 3 of R81, which look at the opcode byte and at `remaining = L - pc` and at no operand
byte: the recognized opcode, or the error an unrecognized or truncated one raises. -/
def decodeOpcode (b : Byte) (remaining : Nat) : Except FatalError Op :=
  match opOfByte b with
  | none => .error (.unrecognizedOpcode b)
  | some o => if remaining < o.len then .error (.truncated b o.len remaining) else .ok o

/-- R81 on the opcode byte and all the bytes of the buffer after it. -/
def decode (b : Byte) (rest : List Byte) : Decoded :=
  match decodeOpcode b (1 + rest.length) with
  | .error e => .raise e
  | .ok o => decodeOperands o rest

/-- R81 on the bytes from the pc to the end of the buffer; none when there is no byte to decode
(R81 requires `pc < L`). -/
def decodeBytes : List Byte → Option Decoded
  | [] => none
  | b :: rest => some (decode b rest)

/-! ## The encoder -/

/-- The opcode of an instruction (R77). -/
def Instr.op : Instr → Op
  | .movi .. => .movi | .movr .. => .movr
  | .addi .. => .addi | .addr .. => .addr
  | .subi .. => .subi | .subr .. => .subr
  | .muli .. => .muli | .mulr .. => .mulr
  | .imuli .. => .imuli | .imulr .. => .imulr
  | .divi .. => .divi | .divr .. => .divr
  | .idivi .. => .idivi | .idivr .. => .idivr
  | .exit => .exit

/-- The length of an instruction in bytes (R70). -/
def Instr.len (i : Instr) : Nat := i.op.len

/-- Immediate bits 7:0, the first immediate byte (R54, R71). -/
def immLo (w : Word) : Byte := w.extractLsb' 0 8

/-- Immediate bits 15:8, the second immediate byte (R54, R71). -/
def immHi (w : Word) : Byte := w.extractLsb' 8 8

/-- A register index as a whole byte of the stream (R76). -/
def regByte (i : RegIdx) : Byte := i.setWidth 8

/-- Format I in stream order (R71). -/
def encodeImmForm (o : Op) (imm : Word) (reg : RegIdx) : List Byte :=
  [o.code, immLo imm, immHi imm, regByte reg]

/-- Format R in stream order (R72). -/
def encodeRegForm (o : Op) (src dst : RegIdx) : List Byte := [o.code, regByte src, regByte dst]

/-- The bytes of an instruction in stream order (R70 to R73). -/
def encode : Instr → List Byte
  | .movi imm r => encodeImmForm .movi imm r
  | .movr s d => encodeRegForm .movr s d
  | .addi imm r => encodeImmForm .addi imm r
  | .addr s d => encodeRegForm .addr s d
  | .subi imm r => encodeImmForm .subi imm r
  | .subr s d => encodeRegForm .subr s d
  | .muli imm r => encodeImmForm .muli imm r
  | .mulr s d => encodeRegForm .mulr s d
  | .imuli imm r => encodeImmForm .imuli imm r
  | .imulr s d => encodeRegForm .imulr s d
  | .divi imm r => encodeImmForm .divi imm r
  | .divr s d => encodeRegForm .divr s d
  | .idivi imm r => encodeImmForm .idivi imm r
  | .idivr s d => encodeRegForm .idivr s d
  | .exit => [Op.exit.code]

/-! ## Words numbered as spec/opcode_table.json numbers them -/

/-- The longest instruction, in bytes (R70). -/
def maxInstrLen : Nat := 4

/-- The first `n` bytes of the number `w`, bits 7:0 first: the stream order of the table's
`encoding_note` (offset 0 first). -/
def bytesOfNat : Nat → Nat → List Byte
  | 0, _ => []
  | n + 1, w => BitVec.ofNat 8 w :: bytesOfNat n (w / 256)

/-- The bytes of a table word: its `nbits` bits, and zeros up to the longest instruction. -/
def tableBytes (nbits w : Nat) : List Byte := bytesOfNat maxInstrLen (w % 2 ^ nbits)

/-- The instruction the decoder reads from a table word; none where it raises an error. -/
def decodeTableWord (nbits w : Nat) : Option Instr :=
  match decodeBytes (tableBytes nbits w) with
  | some (.instr i) => some i
  | _ => none

end Sys2Proof
end

