-- ==== Sys2Proof/Machine/State.lean ====
section
/-! DEFINITION. The architectural state (10_state.md), the reasons a step can stop, and the state after
construction. -/

namespace Sys2Proof.Machine

/-- The register file: N = 11 slots of 16 bits, indices 0..10, fixed size (R7, R20, R21).
Slots 0..7 are GP0..GP7, 8 is SP, 9 is BP, 10 is FLAGS. -/
abbrev RegFile := Vector Word Config.numSlots

/-- The bytes of the instruction buffer B by offset, strictly rising (R50). An unlisted offset has no
value (log 2). -/
abbrev Memory := List Host.Cell

/-- The three states of a run (R37). -/
inductive RunState where
  | running
  | halted
  | aborted
deriving DecidableEq, Repr

/-- The state of the core (R45) and the buffer of the current run (R50; log 1). -/
structure State where
  /-- `x[0]` .. `x[10]` (R20) -/
  regs : RegFile
  /-- the offset of the next opcode (R32); a natural number, no width being given (D2; log 11) -/
  pc : Nat
  /-- the run state (R37) -/
  run : RunState
  /-- the error record, `none` in every state but Aborted (R39) -/
  err : Option FatalError
  /-- the bytes of B (R50) -/
  mem : Memory
  /-- L, the length of B (R50) -/
  bufLen : Nat
deriving DecidableEq, Repr

/-- Why a step stops with a fault. The three fatal errors of R190 are no faults of the model: they take
the run to Aborted, which is a next state (R196). -/
inductive Fault where
  /-- Raised by the byte read at an offset of L or more, which does not exist (R50, R52).
  Safe: the core never makes that read (R52), and the model stops where it would. -/
  | outsideBuffer (offset : Nat)
  /-- Raised by the byte read at an offset below L for which the host presented no byte, against its duty
  (R228; log 2). Safe: no value is made up. -/
  | absentByte (offset : Nat)
deriving DecidableEq, Repr

/-- What the model refuses. -/
inductive Refusal where
  /-- Raised by an arm of `exec` whose instruction has no meaning yet. Safe: the model stops. -/
  | notModelled (mnemonic : String)
  /-- Raised by the register file's ports, driven with an index outside their contract (R27, R29, U1;
  log 13). Safe: the decoder lets no such index through (R82). -/
  | registerPort (index : RegIdx)
  /-- Raised by `commit` when both write ports are enabled with one index (R28; log 17).
  Safe: the core never does this (R28). -/
  | writePortsClash (index : RegIdx)
  /-- Raised by the host move `start` in the Running state, a broken host duty (R228, U12; log 16).
  Unsafe for a host that breaks the duty: nothing is said of it (D15). -/
  | startWhileRunning
  /-- Raised by the host move `por` in the Running state: nothing can stop a run from outside before it ends (R201;
  log 7). Unsafe for a host that does it nevertheless: nothing is said of it. -/
  | porWhileRunning
  /-- Raised by a host read of registers or status during a run, a broken host duty (R228; log 16).
  Unsafe for a host that breaks the duty: nothing is said of it (D15). -/
  | inspectWhileRunning
deriving DecidableEq, Repr

/-- How a step or a host move ends. -/
abbrev Result := Host.Outcome State Fault Refusal

/-- The state after construction: every slot 0, pc 0, Halted, no error (R30, R40, R45, R220, R221), and no
buffer presented: L = 0 and no byte listed (log 7). -/
def State.reset : State where
  regs := Vector.replicate Config.numSlots 0
  pc := 0
  run := .halted
  err := none
  mem := []
  bufLen := 0

end Sys2Proof.Machine
end

