-- ==== Sys2Proof/Machine/Operands.lean ====
section
/-! DEFINITION. The value functions of R10 and the combinational block `16bit_alu` (R120, R121). -/

namespace Sys2Proof.Machine

/-! ## Value notation -/

/-- `trunc16(z)`: `z mod 65536`, the non-negative representative (R10). -/
def trunc16 (z : Int) : Word := BitVec.ofNat 16 (z % 65536).toNat

/-- `signed16(v)`: `v` below 32768, else `v - 65536` (R10). -/
def signed16 (v : Word) : Int := if v.toNat < 32768 then (v.toNat : Int) else (v.toNat : Int) - 65536

/-- `udiv(a, b)`, the natural quotient, for `b > 0` (R10). -/
def udiv (a b : Nat) : Nat := a / b

/-- `umod(a, b)`, the natural remainder, for `b > 0` (R10). -/
def umod (a b : Nat) : Nat := a % b

/-- `tdiv(a, b)`, the quotient rounded toward zero, for `b ≠ 0` (R10, D9; log 4). -/
def tdiv (a b : Int) : Int := Int.tdiv a b

/-- `trem(a, b) = a - b * tdiv(a, b)`, for `b ≠ 0` (R10; log 4). -/
def trem (a b : Int) : Int := a - b * tdiv a b

/-! ## The ALU -/

/-- The ALU operations that drive `res` (R121, codes 0 to 4). -/
inductive ResOp where
  | pass | add | sub | mul | imul
deriving DecidableEq, Repr

/-- The ALU operations that drive `quot` and `rem` (R121, codes 5 and 6). -/
inductive DivOp where
  | divu | divs
deriving DecidableEq, Repr

/-- The operations of the port `alu_op`; code 7 is never produced and has none (R121). -/
inductive AluOp where
  | result (o : ResOp)
  | division (o : DivOp)
deriving DecidableEq, Repr

/-- The code on the port `alu_op` (R121). -/
def AluOp.code : AluOp → BitVec 3
  | .result .pass => 0
  | .result .add => 1
  | .result .sub => 2
  | .result .mul => 3
  | .result .imul => 4
  | .division .divu => 5
  | .division .divs => 6

/-- The output `res` (R121): the exact integer result, truncated; no flag is made (R41). -/
def aluRes (o : ResOp) (a b : Word) : Word :=
  match o with
  | .pass => b
  | .add => trunc16 ((a.toNat : Int) + b.toNat)
  | .sub => trunc16 ((a.toNat : Int) - b.toNat)
  | .mul => trunc16 ((a.toNat : Int) * b.toNat)
  | .imul => trunc16 (signed16 a * signed16 b)

/-- The output `quot` for `b ≠ 0` (R121, R152, R153; -32768 / -1 gives 0x8000, log 5). -/
def aluQuot (o : DivOp) (a b : Word) : Word :=
  match o with
  | .divu => trunc16 (udiv a.toNat b.toNat)
  | .divs => trunc16 (tdiv (signed16 a) (signed16 b))

/-- The output `rem` for `b ≠ 0` (R121, R152, R153). -/
def aluRem (o : DivOp) (a b : Word) : Word :=
  match o with
  | .divu => trunc16 (umod a.toNat b.toNat)
  | .divs => trunc16 (trem (signed16 a) (signed16 b))

/-- The output ports of the ALU (R120). An output that R121 marks "not used", or a quotient or remainder
by 0, is `none`: its value is not architectural (log 14). -/
structure AluPorts where
  res : Option Word
  quot : Option Word
  rem : Option Word
  bz : Bool
deriving DecidableEq, Repr

/-- The ALU as a function of its input ports (R120, R121). -/
def aluBlock (op : AluOp) (a b : Word) : AluPorts :=
  match op with
  | .result o => { res := some (aluRes o a b), quot := none, rem := none, bz := b == 0 }
  | .division o =>
      { res := none
        quot := if b = 0 then none else some (aluQuot o a b)
        rem := if b = 0 then none else some (aluRem o a b)
        bz := b == 0 }

end Sys2Proof.Machine
end

