-- ==== Sys2Proof/Machine/Ops.lean ====
section
/-! DEFINITION. The named operations over the state: field updates, the block `register_file`, reads of the
instruction buffer, fetching, and entry to the Aborted and Halted states. -/

namespace Sys2Proof.Machine

/-! ## Field updates -/

/-- The state with another register file. -/
def State.withRegs (x : RegFile) (s : State) : State := { s with regs := x }

/-- The state with another pc. -/
def State.withPc (n : Nat) (s : State) : State := { s with pc := n }

/-- The state with another run state. -/
def State.withRun (r : RunState) (s : State) : State := { s with run := r }

/-- The state with another error record. -/
def State.withErr (e : Option FatalError) (s : State) : State := { s with err := e }

/-- The state with another instruction buffer, its bytes and its length. -/
def State.withBuffer (m : Memory) (l : Nat) (s : State) : State := { s with mem := m, bufLen := l }

/-! ## The register file (block `register_file`) -/

/-- Read ports A and B: `x[i]`, defined for indices below FLAGS (R27, R28); an index of 10 or more is
refused (R29, U1; log 13). -/
def readPort (x : RegFile) (i : RegIdx) : Except Refusal Word :=
  if h : i.toNat < Config.flagsIndex then .ok (x[i.toNat]'(Nat.lt_trans h (by decide)))
  else .error (.registerPort i)

/-- A write port: `none` when its enable is 0, else its index and data (R28). -/
abbrev WritePort := Option (RegIdx × Word)

/-- What one write port does at `commit`: it replaces the whole slot (R27). -/
def writeSlot (x : RegFile) : WritePort → Except Refusal RegFile
  | none => .ok x
  | some (i, v) =>
      if h : i.toNat < Config.flagsIndex then .ok (x.set i.toNat v (Nat.lt_trans h (by decide)))
      else .error (.registerPort i)

/-- `commit` applies every enabled write at once (R28). Both ports on one index is refused (log 17). -/
def commit (x : RegFile) (w0 w1 : WritePort) : Except Refusal RegFile :=
  match w0, w1 with
  | some (i, v), some (j, w) =>
      if i = j then .error (.writePortsClash i)
      else match writeSlot x (some (i, v)) with
        | .ok y => writeSlot y (some (j, w))
        | .error r => .error r
  | some p, none => writeSlot x (some p)
  | none, w => writeSlot x w

/-- The inspection port: `x[idx]` for indices 0 to 10, FLAGS included; the port carries no other index (R28). -/
def inspectPort (x : RegFile) (i : RegIdx) : Option Word := x[i.toNat]?

/-! ## The instruction buffer -/

/-- The byte listed at an offset; none where nothing is listed (log 2). -/
def Memory.read : Memory → Nat → Option Byte
  | [], _ => none
  | (k, v) :: m, a => if a = k then some v else Memory.read m a

/-- The memory with byte `b` at offset `a`, in canonical form. No instruction writes the buffer (R51, R64);
this is for presenting one. -/
def Memory.put : Memory → Nat → Byte → Memory
  | [], a, b => [(a, b)]
  | (k, v) :: m, a, b =>
      if a < k then (a, b) :: (k, v) :: m
      else if a = k then (a, b) :: m
      else (k, v) :: Memory.put m a b

/-- Bytes put one after another from an offset on. -/
def Memory.putBytes (m : Memory) (a : Nat) : List Byte → Memory
  | [] => m
  | b :: bs => Memory.putBytes (Memory.put m a b) (a + 1) bs

/-- A sequence of bytes laid out from an offset on, one byte an offset (R50). -/
def Memory.layout (a : Nat) : List Byte → Memory
  | [] => []
  | b :: bs => (a, b) :: Memory.layout (a + 1) bs

/-- The canonical form of a memory: offsets strictly rising. An unlisted offset has no value, so no entry
can equal what an unlisted one reads as. -/
abbrev Memory.wf (m : Memory) : Prop := m.Pairwise fun p q => p.1 < q.1

/-- `MemRead(a, 1)`: the byte `B[a]` for `a < L` (R11, R52). At L or more there is no byte: a fault. -/
def memRead (s : State) (a : Nat) : Except Fault Byte :=
  if a < s.bufLen then
    match Memory.read s.mem a with
    | some b => .ok b
    | none => .error (.absentByte a)
  else .error (.outsideBuffer a)

/-- `n` bytes in increasing offset order (R56). -/
def memReads (s : State) (a : Nat) : Nat → Except Fault (List Byte)
  | 0 => .ok []
  | n + 1 =>
      match memRead s a with
      | .error f => .error f
      | .ok b =>
          match memReads s (a + 1) n with
          | .error f => .error f
          | .ok bs => .ok (b :: bs)

/-! ## Fetching -/

/-- `decode(B, L, pc)` of R81 against the buffer: the opcode byte, then the checks that need no operand
byte, and only then the operand bytes of this instruction and no other byte (R52, R83). -/
def fetch (s : State) : Except Fault Decoded :=
  match memRead s s.pc with
  | .error f => .error f
  | .ok b =>
      match decodeOpcode b (s.bufLen - s.pc) with
      | .error e => .ok (.raise e)
      | .ok o =>
          match memReads s (s.pc + 1) (o.len - 1) with
          | .error f => .error f
          | .ok bs => .ok (decodeOperands o bs)

/-- A state whose next fetch finds these bytes: they stand at the pc, inside the buffer, and the run is Running
with no error (log 3). For the interface's `withFetchWord`. -/
def placeForFetch (bs : List Byte) (s : State) : State :=
  ((s.withBuffer (Memory.putBytes s.mem s.pc bs) (max s.bufLen (s.pc + bs.length))).withRun .running).withErr none

/-! ## Entering a terminal state -/

/-- Taking a fatal error (R196): err is set, the state is Aborted; the pc and every register stay, nothing is
saved anywhere else, control goes to no vector. There is no return from it (R199): only a new `start`
leaves Aborted. -/
def State.abort (e : FatalError) (s : State) : State := (s.withErr (some e)).withRun .aborted

/-- The check after a completed instruction: at the end of the buffer the run is Halted (R172). -/
def State.exhaust (s : State) : State := if s.pc = s.bufLen then s.withRun .halted else s

/-! ## What the instruction meanings share -/

/-- The value on a read port, for what follows. -/
def withReg (s : State) (i : RegIdx) (k : Word → Result) : Result :=
  match readPort s.regs i with
  | .ok v => k v
  | .error r => .refused r

/-- The end of an instruction of format I or R: all writes are committed together and the pc advances by the
length (R12, R28, R34). -/
def complete (f : Format) (w0 w1 : WritePort) (s : State) : Result :=
  match commit s.regs w0 w1 with
  | .ok x => .next ((s.withRegs x).withPc (s.pc + f.length))
  | .error r => .refused r

/-- Format I with PASS: `x[reg] <- imm`; the old value of `x[reg]` is not read (R85, R110). -/
def passImm (imm : Word) (reg : RegIdx) (s : State) : Result :=
  complete .immediate (some (reg, imm)) none s

/-- Format R with PASS: `x[dst] <- x[src]`; the old value of `x[dst]` is not read (R85, R111). -/
def passReg (src dst : RegIdx) (s : State) : Result :=
  withReg s src fun b => complete .register (some (dst, b)) none s

/-- Format I with an ALU result: `a = x[reg]`, `b = imm`, `x[reg] <- res` (R85). -/
def resultImm (o : ResOp) (imm : Word) (reg : RegIdx) (s : State) : Result :=
  withReg s reg fun a => complete .immediate (some (reg, aluRes o a imm)) none s

/-- Format R with an ALU result: `a = x[dst]`, `b = x[src]`, `x[dst] <- res` (R85). -/
def resultReg (o : ResOp) (src dst : RegIdx) (s : State) : Result :=
  withReg s dst fun a => withReg s src fun b => complete .register (some (dst, aluRes o a b)) none s

/-- The write-back of a division of `a` by `b`: quotient to GP0 and remainder to GP1 together, whatever
registers the instruction named (R150; log 20); nothing when `b` is 0, and no error (R151). -/
def divideInto (o : DivOp) (f : Format) (a b : Word) (s : State) : Result :=
  if b = 0 then complete f none none s
  else complete f (some (Config.quotientReg, aluQuot o a b)) (some (Config.remainderReg, aluRem o a b)) s

/-- A division of format I: `x[reg]` by the immediate (R85). -/
def divideImm (o : DivOp) (imm : Word) (reg : RegIdx) (s : State) : Result :=
  withReg s reg fun a => divideInto o .immediate a imm s

/-- A division of format R: `x[dst]` by `x[src]`, both read before either result is written (R12, R85). -/
def divideReg (o : DivOp) (src dst : RegIdx) (s : State) : Result :=
  withReg s dst fun a => withReg s src fun b => divideInto o .register a b s

end Sys2Proof.Machine
end

