-- ==== Sys2Proof/Machine/Arith.lean ====
section
/-! DEFINITION. Add, subtract and multiply (41_arith.md). No flag is written and nothing traps (R41, R131). -/

namespace Sys2Proof.Machine

/-- ADDI, opcode 30 (R122): `x[reg] <- trunc16(x[reg] + imm)`, pc + 4. -/
def execAddi (imm : Word) (reg : RegIdx) (s : State) : Result := resultImm .add imm reg s

/-- ADDR, opcode 31 (R123): `x[dst] <- trunc16(x[dst] + x[src])`, pc + 3. -/
def execAddr (src dst : RegIdx) (s : State) : Result := resultReg .add src dst s

/-- SUBI, opcode 32 (R124): `x[reg] <- trunc16(x[reg] - imm)`, pc + 4. -/
def execSubi (imm : Word) (reg : RegIdx) (s : State) : Result := resultImm .sub imm reg s

/-- SUBR, opcode 33 (R125): `x[dst] <- trunc16(x[dst] - x[src])`, pc + 3. -/
def execSubr (src dst : RegIdx) (s : State) : Result := resultReg .sub src dst s

/-- MULI, opcode 34 (R126): the low 16 bits of the product of two naturals, pc + 4. -/
def execMuli (imm : Word) (reg : RegIdx) (s : State) : Result := resultImm .mul imm reg s

/-- MULR, opcode 35 (R127): the low 16 bits of the product of two naturals, pc + 3. -/
def execMulr (src dst : RegIdx) (s : State) : Result := resultReg .mul src dst s

/-- IMULI, opcode 36 (R128): the signed product, truncated, pc + 4. -/
def execImuli (imm : Word) (reg : RegIdx) (s : State) : Result := resultImm .imul imm reg s

/-- IMULR, opcode 37 (R129): the signed product, truncated, pc + 3. -/
def execImulr (src dst : RegIdx) (s : State) : Result := resultReg .imul src dst s

end Sys2Proof.Machine
end

