-- ==== Sys2Proof/Machine/Control.lean ====
section
/-! DEFINITION. The terminator (43_control.md). -/

namespace Sys2Proof.Machine

/-- EXIT, opcode 255 (R170): the run is Halted; the pc does not advance and no register is written. -/
def execExit (s : State) : Result := .next (s.withRun .halted)

end Sys2Proof.Machine
end

