-- ==== Sys2Proof/Machine/Divide.lean ====
section
/-! DEFINITION. The divisions (42_divide.md): quotient to GP0, remainder to GP1, nothing for divisor 0. -/

namespace Sys2Proof.Machine

/-- DIVI, opcode 38 (R155): unsigned, `x[reg]` by `imm`, pc + 4. -/
def execDivi (imm : Word) (reg : RegIdx) (s : State) : Result := divideImm .divu imm reg s

/-- DIVR, opcode 39 (R156): unsigned, `x[dst]` by `x[src]`, pc + 3. -/
def execDivr (src dst : RegIdx) (s : State) : Result := divideReg .divu src dst s

/-- IDIVI, opcode 40 (R157): signed, toward zero, `x[reg]` by `imm`, pc + 4. -/
def execIdivi (imm : Word) (reg : RegIdx) (s : State) : Result := divideImm .divs imm reg s

/-- IDIVR, opcode 41 (R158): signed, toward zero, `x[dst]` by `x[src]`, pc + 3. -/
def execIdivr (src dst : RegIdx) (s : State) : Result := divideReg .divs src dst s

end Sys2Proof.Machine
end

