-- ==== Sys2Proof/Machine/Move.lean ====
section
/-! DEFINITION. The move instructions (40_move.md). -/

namespace Sys2Proof.Machine

/-- MOVI, opcode 20 (R110): `x[reg] <- imm`, pc + 4. -/
def execMovi (imm : Word) (reg : RegIdx) (s : State) : Result := passImm imm reg s

/-- MOVR, opcode 21 (R111): `x[dst] <- x[src]`, pc + 3. -/
def execMovr (src dst : RegIdx) (s : State) : Result := passReg src dst s

end Sys2Proof.Machine
end

