-- ==== Sys2Proof/Machine/Dispatch.lean ====
section
/-! DEFINITION. The meaning of each instruction: `execute(d)` of R172, which takes in the advance of the pc. -/

namespace Sys2Proof.Machine

def exec (i : Instr) (s : State) : Host.Outcome State Fault Refusal :=
  match i with
  | .movi imm reg => Sys2Proof.Machine.execMovi imm reg s
  | .movr src dst => Sys2Proof.Machine.execMovr src dst s
  | .addi imm reg => Sys2Proof.Machine.execAddi imm reg s
  | .addr src dst => Sys2Proof.Machine.execAddr src dst s
  | .subi imm reg => Sys2Proof.Machine.execSubi imm reg s
  | .subr src dst => Sys2Proof.Machine.execSubr src dst s
  | .muli imm reg => Sys2Proof.Machine.execMuli imm reg s
  | .mulr src dst => Sys2Proof.Machine.execMulr src dst s
  | .imuli imm reg => Sys2Proof.Machine.execImuli imm reg s
  | .imulr src dst => Sys2Proof.Machine.execImulr src dst s
  | .divi imm reg => Sys2Proof.Machine.execDivi imm reg s
  | .divr src dst => Sys2Proof.Machine.execDivr src dst s
  | .idivi imm reg => Sys2Proof.Machine.execIdivi imm reg s
  | .idivr src dst => Sys2Proof.Machine.execIdivr src dst s
  | .exit => Sys2Proof.Machine.execExit s

end Sys2Proof.Machine
end

