-- ==== Sys2Proof/Machine/Fsm.lean ====
section
/-! DEFINITION. One step of the block `fetch_decode_execute_fsm` in the Running state (R172). -/

namespace Sys2Proof.Machine

/-- What the step does with the outcome of an executed instruction: the end of the buffer ends the run (R172).
After EXIT the pc still lies inside the buffer (R170), so the check changes nothing there. -/
def settle : Result → Result
  | .next t => .next t.exhaust
  | .fault f => .fault f
  | .refused r => .refused r

/-- One step in the Running state (R172): decode at the pc, then abort on a raised error (R196) or execute
and check for the end of the buffer. -/
def stepRunning (s : State) : Result :=
  match fetch s with
  | .error f => .fault f
  | .ok (.raise e) => .next (s.abort e)
  | .ok (.instr i) => settle (exec i s)

/-- One step in any state: Halted and Aborted stay as they are while no `start` comes (R38, R173; log 12). -/
def stepAny (s : State) : Result :=
  match s.run with
  | .running => stepRunning s
  | .halted => .next s
  | .aborted => .next s

end Sys2Proof.Machine
end

