-- ==== Sys2Proof/Machine/Step.lean ====
section
/-! DEFINITION. The step of the machine and the interface's way of placing one instruction. -/

namespace Sys2Proof.Machine

/-- One step of the core (R172, R173). -/
def step (s : State) : Host.Outcome State Fault Refusal := stepAny s

/-- The state whose very next step runs the instruction of a table word: its bytes stand at the pc and the run is
Running. On `State.reset` this is what the host's `start` on those bytes gives (R171; log 3). -/
def State.withFetchWord (s : State) (nbits w : Nat) : State := placeForFetch (tableBytes nbits w) s

end Sys2Proof.Machine
end

