-- ==== Sys2Proof/Machine/Asm.lean ====
section
/-! DEFINITION. The assembler spelling of R86, a spelling aid only (R5): printing an instruction and reading
one back. Texts are lists of characters. Where R86 is silent (spaces, the form printed) log 19 says what is
done. -/

namespace Sys2Proof.Machine

/-- The mnemonic of each opcode (R77, R86). -/
def mnemonicOf : Op → List Char
  | .movi => ['M', 'O', 'V', 'I']
  | .movr => ['M', 'O', 'V', 'R']
  | .addi => ['A', 'D', 'D', 'I']
  | .addr => ['A', 'D', 'D', 'R']
  | .subi => ['S', 'U', 'B', 'I']
  | .subr => ['S', 'U', 'B', 'R']
  | .muli => ['M', 'U', 'L', 'I']
  | .mulr => ['M', 'U', 'L', 'R']
  | .imuli => ['I', 'M', 'U', 'L', 'I']
  | .imulr => ['I', 'M', 'U', 'L', 'R']
  | .divi => ['D', 'I', 'V', 'I']
  | .divr => ['D', 'I', 'V', 'R']
  | .idivi => ['I', 'D', 'I', 'V', 'I']
  | .idivr => ['I', 'D', 'I', 'V', 'R']
  | .exit => ['E', 'X', 'I', 'T']

/-- The asm names of the operand registers (R21, R86); FLAGS has none. -/
def regNames : List (List Char × RegIdx) :=
  [(['r', '0'], 0), (['r', '1'], 1), (['r', '2'], 2), (['r', '3'], 3),
   (['r', '4'], 4), (['r', '5'], 5), (['r', '6'], 6), (['r', '7'], 7),
   (['s', 'p'], 8), (['b', 'p'], 9)]

/-- The name of a register operand; none for an index that is no operand. -/
def regName (i : RegIdx) : Option (List Char) := (regNames.find? fun p => p.2 == i).map Prod.fst

/-- The register a name spells. -/
def readReg (cs : List Char) : Option RegIdx := (regNames.find? fun p => p.1 == cs).map Prod.snd

/-! ## Numbers -/

/-- The value of a digit in a base of 10 or 16. -/
def digitValue (base : Nat) (c : Char) : Option Nat :=
  let v :=
    if '0' ≤ c ∧ c ≤ '9' then c.toNat - '0'.toNat
    else if 'a' ≤ c ∧ c ≤ 'f' then c.toNat - 'a'.toNat + 10
    else if 'A' ≤ c ∧ c ≤ 'F' then c.toNat - 'A'.toNat + 10
    else 16
  if v < base then some v else none

/-- The number a row of digits spells, continuing from `acc`. -/
def readDigits (base acc : Nat) : List Char → Option Nat
  | [] => some acc
  | c :: cs =>
      match digitValue base c with
      | some v => readDigits base (acc * base + v) cs
      | none => none

/-- A number: one digit or more. -/
def readNat (base : Nat) (cs : List Char) : Option Nat :=
  if cs.isEmpty then none else readDigits base 0 cs

/-- An immediate: `0x` hex or decimal in 0..65535, or a decimal in -32768..-1 that stands for its
two's-complement u16 (R86). -/
def readImm : List Char → Option Word
  | '-' :: cs =>
      (readNat 10 cs).bind fun n => if 1 ≤ n ∧ n ≤ 32768 then some (BitVec.ofNat 16 (65536 - n)) else none
  | '0' :: 'x' :: cs => (readNat 16 cs).bind fun n => if n ≤ 65535 then some (BitVec.ofNat 16 n) else none
  | cs => (readNat 10 cs).bind fun n => if n ≤ 65535 then some (BitVec.ofNat 16 n) else none

/-- An immediate is printed in decimal (log 19). -/
def showImm (w : Word) : List Char := Nat.toDigits 10 w.toNat

/-! ## Instructions -/

/-- `MNEMONIC imm, reg` (R86). -/
def showImmForm (o : Op) (imm : Word) (reg : RegIdx) : Option (List Char) :=
  (regName reg).map fun r => mnemonicOf o ++ ' ' :: (showImm imm ++ ',' :: ' ' :: r)

/-- `MNEMONIC src, dst` (R86). -/
def showRegForm (o : Op) (src dst : RegIdx) : Option (List Char) :=
  (regName src).bind fun s => (regName dst).map fun d => mnemonicOf o ++ ' ' :: (s ++ ',' :: ' ' :: d)

/-- The spelling of an instruction (R86); none if it is not well formed. -/
def asmOf : Instr → Option (List Char)
  | .movi m r => showImmForm .movi m r
  | .movr s d => showRegForm .movr s d
  | .addi m r => showImmForm .addi m r
  | .addr s d => showRegForm .addr s d
  | .subi m r => showImmForm .subi m r
  | .subr s d => showRegForm .subr s d
  | .muli m r => showImmForm .muli m r
  | .mulr s d => showRegForm .mulr s d
  | .imuli m r => showImmForm .imuli m r
  | .imulr s d => showRegForm .imulr s d
  | .divi m r => showImmForm .divi m r
  | .divr s d => showRegForm .divr s d
  | .idivi m r => showImmForm .idivi m r
  | .idivr s d => showRegForm .idivr s d
  | .exit => some (mnemonicOf .exit)

/-- The characters before the first `c` and those after it, if it occurs. -/
def splitAtChar (c : Char) : List Char → List Char × Option (List Char)
  | [] => ([], none)
  | x :: xs =>
      if x = c then ([], some xs)
      else
        let p := splitAtChar c xs
        (x :: p.1, p.2)

/-- A text without its leading spaces. -/
def dropSpaces (cs : List Char) : List Char := cs.dropWhile fun c => c == ' '

/-- A text without the spaces at its two ends (log 19). -/
def trimSpaces (cs : List Char) : List Char := (dropSpaces (dropSpaces cs).reverse).reverse

/-- The opcode a mnemonic spells. -/
def readMnemonic (cs : List Char) : Option Op := allOps.find? fun o => mnemonicOf o == cs

/-- Operands `imm, reg`. -/
def readImmForm (mk : Word → RegIdx → Instr) (operands : List Char) : Option Instr :=
  match splitAtChar ',' operands with
  | (m, some r) => (readImm (trimSpaces m)).bind fun w => (readReg (trimSpaces r)).map fun i => mk w i
  | (_, none) => none

/-- Operands `src, dst`. -/
def readRegForm (mk : RegIdx → RegIdx → Instr) (operands : List Char) : Option Instr :=
  match splitAtChar ',' operands with
  | (s, some d) => (readReg (trimSpaces s)).bind fun i => (readReg (trimSpaces d)).map fun j => mk i j
  | (_, none) => none

/-- The instruction a line spells (R86); there are no pseudo-instructions. -/
def readAsm (line : List Char) : Option Instr :=
  let p := splitAtChar ' ' (trimSpaces line)
  let operands := p.2.getD []
  match readMnemonic p.1 with
  | none => none
  | some .movi => readImmForm .movi operands
  | some .movr => readRegForm .movr operands
  | some .addi => readImmForm .addi operands
  | some .addr => readRegForm .addr operands
  | some .subi => readImmForm .subi operands
  | some .subr => readRegForm .subr operands
  | some .muli => readImmForm .muli operands
  | some .mulr => readRegForm .mulr operands
  | some .imuli => readImmForm .imuli operands
  | some .imulr => readRegForm .imulr operands
  | some .divi => readImmForm .divi operands
  | some .divr => readRegForm .divr operands
  | some .idivi => readImmForm .idivi operands
  | some .idivr => readRegForm .idivr operands
  | some .exit => if operands.isEmpty then some .exit else none

end Sys2Proof.Machine
end

