-- ==== Sys2Proof/Machine/DecoderBlock.lean ====
section
/-! DEFINITION. The ports of the block `instruction_decoder` (R84) and the routing of operands and results
(R85). The block computes `decode` of Sys2Proof/Decode.lean (D4). -/

namespace Sys2Proof.Machine

/-- The error cause code on `dec_err` and `err_code` (R194; log 15). -/
def errCode : FatalError → BitVec 2
  | .unrecognizedOpcode _ => 1
  | .truncated .. => 2
  | .illegalRegister .. => 3

/-- The register role code on `err_role` (R194; log 15). -/
def roleCode : RegRole → BitVec 2
  | .source => 0
  | .destination => 1
  | .sole => 2

/-- The ALU operation of each opcode; EXIT uses none (R85). -/
def aluOpOf : Op → Option AluOp
  | .movi | .movr => some (.result .pass)
  | .addi | .addr => some (.result .add)
  | .subi | .subr => some (.result .sub)
  | .muli | .mulr => some (.result .mul)
  | .imuli | .imulr => some (.result .imul)
  | .divi | .divr => some (.division .divu)
  | .idivi | .idivr => some (.division .divs)
  | .exit => none

/-- The output ports of the decoder (R84). An output with no meaning for the instruction or the error at hand
is `none` (log 14). -/
structure DecoderPorts where
  decOk : Bool
  decErr : Option (BitVec 2)
  errRole : Option (BitVec 2)
  errValue : Option Byte
  len : Option (BitVec 3)
  fmt : Option Format
  aluOp : Option (BitVec 3)
  isExit : Bool
  imm : Option Word
  raSel : Option RegIdx
  rbSel : Option RegIdx
  wbIdx : Option RegIdx
deriving DecidableEq, Repr

/-- The operand outputs for a descriptor: `ra_sel` is `reg` (I) or `dst` (R), `rb_sel` is `src` (R), `wb_idx`
is `reg` (I) or `dst` (R) (R84). -/
def operandPorts : Instr → Option Word × Option RegIdx × Option RegIdx × Option RegIdx
  | .movi m r | .addi m r | .subi m r | .muli m r | .imuli m r | .divi m r | .idivi m r =>
      (some m, some r, none, some r)
  | .movr s d | .addr s d | .subr s d | .mulr s d | .imulr s d | .divr s d | .idivr s d =>
      (none, some d, some s, some d)
  | .exit => (none, none, none, none)

/-- The outputs when a descriptor is produced. -/
def descriptorPorts (i : Instr) : DecoderPorts :=
  let p := operandPorts i
  { decOk := true, decErr := none, errRole := none, errValue := none
    len := some (BitVec.ofNat 3 i.len), fmt := some i.op.format
    aluOp := (aluOpOf i.op).map AluOp.code, isExit := i.op == .exit
    imm := p.1, raSel := p.2.1, rbSel := p.2.2.1, wbIdx := p.2.2.2 }

/-- The outputs when an error is raised; `len` is the `required` field of a truncation (R84). -/
def errorPorts (e : FatalError) : DecoderPorts :=
  { decOk := false, decErr := some (errCode e)
    errRole := match e with
      | .illegalRegister _ role _ => some (roleCode role)
      | _ => none
    errValue := match e with
      | .illegalRegister _ _ v => some v
      | _ => none
    len := match e with
      | .truncated _ n _ => some (BitVec.ofNat 3 n)
      | _ => none
    fmt := none, aluOp := none, isExit := false
    imm := none, raSel := none, rbSel := none, wbIdx := none }

/-- The decoder as a function of its input ports (R84). `ibk` counts only when `k < rem`; `rem` is 1..4 while
Running, and the block says nothing for another value (log 14). -/
def decoderBlock (ib0 ib1 ib2 ib3 : Byte) (rem : BitVec 3) : Option DecoderPorts :=
  match decodeBytes ([ib0, ib1, ib2, ib3].take rem.toNat) with
  | none => none
  | some d =>
      if 4 < rem.toNat then none
      else some (match d with
        | .instr i => descriptorPorts i
        | .raise e => errorPorts e)

end Sys2Proof.Machine
end

