-- ==== Sys2Proof/Machine/Datapath.lean ====
section
/-! DEFINITION. The four blocks wired together as R2, R28, R84, R85, R120 and R176 describe them: the second,
port-level design of the same step. `step` does not call it; that the two agree is a statement about them
(R227). -/

namespace Sys2Proof.Machine

/-- The operation a code on `alu_op` selects; code 7 selects none (R121). -/
def aluOpOfCode (c : BitVec 3) : Option AluOp :=
  [AluOp.result .pass, .result .add, .result .sub, .result .mul, .result .imul,
   .division .divu, .division .divs].find? fun o => o.code == c

/-- The register role a code on `err_role` names (R194). -/
def roleOfCode (c : BitVec 2) : Option RegRole :=
  [RegRole.source, .destination, .sole].find? fun r => roleCode r == c

/-- The writes of an instruction from the ALU's outputs (R85): `res` to `wb_idx`, or `quot` and `rem` to slots 0
and 1 unless `bz`. -/
def writeBackPorts (out : AluPorts) (wb : RegIdx) : WritePort × WritePort :=
  match out.res with
  | some v => (some (wb, v), none)
  | none =>
      if out.bz then (none, none)
      else (out.quot.map fun q => (Config.quotientReg, q), out.rem.map fun r => (Config.remainderReg, r))

/-- The ALU's operand b: the immediate where the decoder gives one, else read port B (R84, R85). -/
def operandB (p : DecoderPorts) (s : State) : Option (Except Refusal Word) :=
  match p.imm, p.rbSel with
  | some m, _ => some (.ok m)
  | none, some i => some (readPort s.regs i)
  | none, none => none

/-- Executing a descriptor on the blocks (R85, R172). The pc advances by the output `len`. -/
def executePorts (p : DecoderPorts) (s : State) : Option Result :=
  if p.isExit then some (.next (s.withRun .halted))
  else
    match p.aluOp.bind aluOpOfCode, p.raSel, p.wbIdx, p.len, operandB p s with
    | some op, some ra, some wb, some n, some b =>
        match readPort s.regs ra, b with
        | .ok a, .ok v =>
            let w := writeBackPorts (aluBlock op a v) wb
            match commit s.regs w.1 w.2 with
            | .ok x => some (.next ((s.withRegs x).withPc (s.pc + n.toNat)))
            | .error r => some (.refused r)
        | .error r, _ => some (.refused r)
        | _, .error r => some (.refused r)
    | _, _, _, _, _ => none

/-- The error record the FSM forms from the decoder's outputs: the opcode is `ib0`, a truncation's `remaining` is
`rem` (R84, R194). -/
def recordFromPorts (p : DecoderPorts) (ib0 : Byte) (rem : BitVec 3) : Option FatalError :=
  match p.decErr with
  | some 1 => some (.unrecognizedOpcode ib0)
  | some 2 => p.len.map fun n => .truncated ib0 n.toNat rem.toNat
  | some 3 => (p.errRole.bind roleOfCode).bind fun role => p.errValue.map fun v => .illegalRegister ib0 role v
  | _ => none

/-- The byte on decoder input `ibk`: `B[pc+k]`. Where `k >= rem` it is don't-care (R84); 0 stands there. -/
def inputByte (s : State) (k : Nat) : Byte := (Memory.read s.mem (s.pc + k)).getD 0

/-- The decoder input `rem = min(L - pc, 4)` (R84). -/
def inputRem (s : State) : BitVec 3 := BitVec.ofNat 3 (min (s.bufLen - s.pc) 4)

/-- One step in the Running state on the blocks; none if an output it needs is missing. -/
def blockStep (s : State) : Option Result :=
  match decoderBlock (inputByte s 0) (inputByte s 1) (inputByte s 2) (inputByte s 3) (inputRem s) with
  | none => none
  | some p =>
      if p.decOk then (executePorts p s).map settle
      else (recordFromPorts p (inputByte s 0) (inputRem s)).map fun e => .next (s.abort e)

end Sys2Proof.Machine
end

