-- ==== Sys2Proof/Machine/Flags.lean ====
section
/-! DEFINITION. Flags. The core has no status flag and no condition code: no instruction computes, sets or
reads one (R41, R120). What stands here is the reserved FLAGS slot (R42) and nothing else: it is storage
with no defined field, and no semantics is attached to it (U5, U6). -/

namespace Sys2Proof.Machine

/-- The value of the FLAGS slot, `x[10]` (R21, R42). -/
def State.flags (s : State) : Word := s.regs[10]

/-- What R42 says of FLAGS at all times: it holds the construction value 0. -/
def State.flagsReserved (s : State) : Bool := s.flags == 0

end Sys2Proof.Machine
end

