-- ==== Sys2Proof/Machine/HostMoves.lean ====
section
/-! DEFINITION. What the host can do (D13) and what it can read: `por`, `start`, the inspection port and the
status outputs. No move breaks a duty of R228 (U12; log 16) or stops a run from outside (R201; log 7): such a move is
refused. -/

namespace Sys2Proof.Machine

/-- A move the host has between runs only: in Halted and Aborted it leads to `t`, in Running it is refused
(R173, R201, R228). -/
def betweenRuns (whileRunning : Refusal) (t : State) (s : State) : Result :=
  match s.run with
  | .running => .refused whileRunning
  | .halted => .next t
  | .aborted => .next t

/-- Asserting `por` on a core that has been constructed: it is constructed anew (R220, R221), with no buffer presented.
It does not stop a run (R201). The first construction since power-up (R223), which no state of the core comes before,
is `State.reset` itself (log 7). -/
def hostPor (s : State) : Result := betweenRuns .porWhileRunning State.reset s

/-- The state a run of the buffer `bs` starts in (R171): pc 0, err None, Running if L > 0 else Halted, the
register file not changed. -/
def State.started (bs : List Byte) (s : State) : State :=
  (((s.withBuffer (Memory.layout 0 bs) bs.length).withPc 0).withErr none).withRun
    (if bs.length = 0 then .halted else .running)

/-- Asserting `start` on the buffer `bs` (R171, R173): a move of a terminal state only (R206, R228). -/
def hostStart (bs : List Byte) (s : State) : Result := betweenRuns .startWhileRunning (s.started bs) s

/-- The moves by which the host changes the state of the core, all of them (R31, R171, R201, R220; D13). -/
inductive HostMove where
  | por
  | start (bs : List Byte)
deriving DecidableEq, Repr

/-- What a move of the host does. -/
def hostMove (m : HostMove) (s : State) : Result :=
  match m with
  | .por => hostPor s
  | .start bs => hostStart bs s

/-- Reading a slot on the inspection port (R28): between runs only (R59, R228), slots 0 to 10. -/
def hostInspect (i : RegIdx) (s : State) : Except Refusal Word :=
  match s.run with
  | .running => .error .inspectWhileRunning
  | _ =>
      match inspectPort s.regs i with
      | some v => .ok v
      | none => .error (.registerPort i)

/-- The code on the output `state` (R176). -/
def RunState.code : RunState → BitVec 2
  | .running => 0
  | .halted => 1
  | .aborted => 2

/-- The status outputs of the FSM (R176, R194). -/
structure Status where
  state : BitVec 2
  pc : Nat
  errCode : BitVec 2
  errOp : Byte
  errRequired : BitVec 3
  errRemaining : BitVec 3
  errRole : BitVec 2
  errValue : Byte
deriving DecidableEq, Repr

/-- The status outputs as R194 encodes them; unused fields are 0 (log 15). -/
def State.status (s : State) : Status :=
  match s.err with
  | none =>
      { state := s.run.code, pc := s.pc, errCode := 0, errOp := 0, errRequired := 0, errRemaining := 0
        errRole := 0, errValue := 0 }
  | some (.unrecognizedOpcode op) =>
      { state := s.run.code, pc := s.pc, errCode := errCode (.unrecognizedOpcode op), errOp := op
        errRequired := 0, errRemaining := 0, errRole := 0, errValue := 0 }
  | some (.truncated op n k) =>
      { state := s.run.code, pc := s.pc, errCode := errCode (.truncated op n k), errOp := op
        errRequired := BitVec.ofNat 3 n, errRemaining := BitVec.ofNat 3 k, errRole := 0, errValue := 0 }
  | some (.illegalRegister op role v) =>
      { state := s.run.code, pc := s.pc, errCode := errCode (.illegalRegister op role v), errOp := op
        errRequired := 0, errRemaining := 0, errRole := roleCode role, errValue := v }

/-- Reading the status outputs: between runs only (R59, R228). -/
def hostReadStatus (s : State) : Except Refusal Status :=
  match s.run with
  | .running => .error .inspectWhileRunning
  | _ => .ok s.status

end Sys2Proof.Machine
end

