-- ==== Sys2Proof/Safety.lean ====
section
/-! DEFINITION. What a state the spec allows looks like, and when a run has ended, in the terms the statements
use. -/

namespace Sys2Proof.Machine

/-- The recorded fields lie where R39 says: an unrecognized byte is none of the 15 opcodes, `required` is 3 or 4
and is the length of the opcode, `remaining` is 1..3 and less than it, an illegal register value is 10..255. -/
def recordShape : FatalError → Bool
  | .unrecognizedOpcode op => (opOfByte op).isNone
  | .truncated op required remaining =>
      (required == 3 || required == 4) && ((opOfByte op).map Op.len == some required)
        && decide (1 ≤ remaining) && decide (remaining ≤ 3) && decide (remaining < required)
  | .illegalRegister op _ value => (opOfByte op).isSome && decide (10 ≤ value.toNat)

/-- The host presents a buffer as R228 asks: every offset below L has its byte, and nothing is listed at L or
beyond. -/
def State.Presented (s : State) : Prop := ∀ a, a < s.bufLen ↔ (Memory.read s.mem a).isSome = true

/-- The run has ended (R174). -/
def State.Ended (s : State) : Prop := s.run = .halted ∨ s.run = .aborted

/-- What R36, R37, R39, R42, R50 and R174 say of the state between steps. -/
structure State.Inv (s : State) : Prop where
  /-- The memory is in canonical form. -/
  canonical : Memory.wf s.mem
  /-- The bytes of B are at the offsets 0..L-1 (R50). -/
  presented : s.Presented
  /-- The pc never exceeds L (R36). -/
  pcInside : s.pc ≤ s.bufLen
  /-- In Running, pc < L (R37). -/
  runningInside : s.run = .running → s.pc < s.bufLen
  /-- err is None in every state but Aborted, and is not None there (R39, R174). -/
  errAborted : s.err = none ↔ s.run ≠ .aborted
  /-- An aborted run stands at the faulting opcode, and the record is the error decoding raises there (R174, R196). -/
  errHere : ∀ e, s.err = some e → fetch s = .ok (.raise e)
  /-- A halted run stands at the end of the buffer or at an EXIT (R174). -/
  haltedWhy : s.run = .halted → s.pc = s.bufLen ∨ memRead s s.pc = .ok Config.exitOpcode
  /-- FLAGS holds the construction value 0 (R42). -/
  flagsZero : s.flagsReserved = true

/-- Every slot that is not listed reads as before, seen on the inspection port (SP, BP and FLAGS among them). -/
def State.SlotsKept (s t : State) (written : List RegIdx) : Prop :=
  ∀ j : RegIdx, j ∉ written → inspectPort t.regs j = inspectPort s.regs j

/-- Everything but the registers and the pc is as before: the run state, the error record, the length of the buffer
and every byte of it. -/
def State.RestKept (s t : State) : Prop :=
  t.run = s.run ∧ t.err = s.err ∧ t.bufLen = s.bufLen ∧ t.mem = s.mem ∧ ∀ a, memRead t a = memRead s a

/-- How format I with opcode `code` is encoded and decoded, and the two errors the decoder may raise before the
instruction runs (R71, R81). That the counts of a truncation include the opcode byte is the spec's own decision D23
(log 15). -/
def ImmFormOf (code : Byte) (mk : Word → RegIdx → Instr) : Prop :=
  (∀ imm reg, encode (mk imm reg) =
      [code, BitVec.ofNat 8 imm.toNat, BitVec.ofNat 8 (imm.toNat / 256), BitVec.ofNat 8 reg.toNat]) ∧
  (∀ lo hi r tail, r.toNat ≤ 9 → decode code (lo :: hi :: r :: tail) =
      .instr (mk (BitVec.ofNat 16 (lo.toNat + 256 * hi.toNat)) (BitVec.ofNat 4 r.toNat))) ∧
  (∀ rest, rest.length < 3 → decode code rest = .raise (.truncated code 4 (1 + rest.length))) ∧
  (∀ lo hi r tail, 10 ≤ r.toNat → decode code (lo :: hi :: r :: tail) = .raise (.illegalRegister code .sole r))

/-- The same for format R (R72, R81). That the destination is looked at only when the source is legal is the spec's
own decision D7 (log 6). -/
def RegFormOf (code : Byte) (mk : RegIdx → RegIdx → Instr) : Prop :=
  (∀ src dst, encode (mk src dst) = [code, BitVec.ofNat 8 src.toNat, BitVec.ofNat 8 dst.toNat]) ∧
  (∀ s d tail, s.toNat ≤ 9 → d.toNat ≤ 9 → decode code (s :: d :: tail) =
      .instr (mk (BitVec.ofNat 4 s.toNat) (BitVec.ofNat 4 d.toNat))) ∧
  (∀ rest, rest.length < 2 → decode code rest = .raise (.truncated code 3 (1 + rest.length))) ∧
  (∀ s d tail, 10 ≤ s.toNat → decode code (s :: d :: tail) = .raise (.illegalRegister code .source s)) ∧
  (∀ s d tail, s.toNat ≤ 9 → 10 ≤ d.toNat →
      decode code (s :: d :: tail) = .raise (.illegalRegister code .destination d))

/-- The signed law of R159 for dividend `d`, divisor `v` and the stored quotient `q` and remainder `r`: the identity
holds modulo 65536, and exactly but for -32768 / -1; the remainder is smaller than the divisor and zero or of the
dividend's sign. It rests on the spec's own decisions D9 and D10 (logs 4 and 5). -/
def SignedDivisionLaw (d v q r : Word) : Prop :=
  (q.toInt * v.toInt + r.toInt) % 65536 = d.toInt % 65536 ∧
  (¬ (d = 0x8000 ∧ v = 0xFFFF) → q.toInt * v.toInt + r.toInt = d.toInt) ∧
  r.toInt.natAbs < v.toInt.natAbs ∧ (0 ≤ d.toInt → 0 ≤ r.toInt) ∧ (d.toInt ≤ 0 → r.toInt ≤ 0)

/-- The registers an instruction may write: the one it names as its destination, or GP0 and GP1 for a division
(R24, R85, R150). -/
def writtenSlots : Instr → List RegIdx
  | .movi _ r | .addi _ r | .subi _ r | .muli _ r | .imuli _ r => [r]
  | .movr _ d | .addr _ d | .subr _ d | .mulr _ d | .imulr _ d => [d]
  | .divi .. | .divr .. | .idivi .. | .idivr .. => [0, 1]
  | .exit => []

/-- The outcomes of two steps agree in all but the register files: both go on, with states that differ in nothing
else, or both stop for the same reason. -/
def OutcomesAgreeButRegs : Result → Result → Prop
  | .next t, .next u => t.pc = u.pc ∧ t.run = u.run ∧ t.err = u.err ∧ t.mem = u.mem ∧ t.bufLen = u.bufLen
  | .fault f, .fault g => f = g
  | .refused r, .refused q => r = q
  | _, _ => False

/-- Two states that differ in nothing but their register files. -/
def State.SameButRegs (s t : State) : Prop :=
  s.pc = t.pc ∧ s.run = t.run ∧ s.err = t.err ∧ s.mem = t.mem ∧ s.bufLen = t.bufLen

end Sys2Proof.Machine
end

