-- ==== Sys2Proof/Certificates/Slice0/Obligations.lean ====
section
/-! DEFINITION. The statements for the provers. Each docstring names the rule of spec/ it formalises. Values are
written with the library's arithmetic (`toNat`, `toInt`, `/`, `%`, `Int.tdiv`, `Int.tmod`), not with the model's
own `trunc16`, `signed16` and ALU. -/

open Sys2Proof Sys2Proof.Machine

/-! ## Encoding and decoding -/

/-- Words written out from R71 to R73 and R77, one of each family, decode to the instruction they stand for. -/
def Obligations.WordsOfEveryFamilyDecode : Prop :=
  decodeTableWord 32 0x02000514 = some (.movi 5 2) ∧
  decodeTableWord 24 0x070315 = some (.movr 3 7) ∧
  decodeTableWord 32 0x0201001E = some (.addi 0x0100 2) ∧
  decodeTableWord 24 0x010621 = some (.subr 6 1) ∧
  decodeTableWord 24 0x040523 = some (.mulr 5 4) ∧
  decodeTableWord 32 0x03FFFB24 = some (.imuli 0xFFFB 3) ∧
  decodeTableWord 24 0x050627 = some (.divr 6 5) ∧
  decodeTableWord 32 0x00FFFD28 = some (.idivi 0xFFFD 0) ∧
  decodeTableWord 8 0xFF = some .exit

/-- Decoding the bytes of a well-formed instruction gives it back, whatever bytes follow (R70 to R77, R81). -/
def Obligations.DecodeOfEncodeIsTheInstruction : Prop :=
  ∀ (i : Instr) (tail : List Byte), i.wf = true → decodeBytes (encode i ++ tail) = some (.instr i)

/-- Whatever the bytes are, a decoded instruction is well formed and its encoding is the bytes it was decoded
from, so no two byte sequences spell one instruction (R80, R82). -/
def Obligations.DecodedInstructionIsWellFormedAndEncodesBack : Prop :=
  ∀ (b : Byte) (rest : List Byte) (i : Instr), decode b rest = .instr i →
    i.wf = true ∧ i.len ≤ 1 + rest.length ∧ (b :: rest).take i.len = encode i

/-- R54: the first immediate byte is bits 7:0 and the second is bits 15:8, in every instruction of format I. -/
def Obligations.ImmediatesAreLittleEndian : Prop :=
  (∀ lo hi : Byte, (assembleImm lo hi).toNat = lo.toNat + 256 * hi.toNat ∧
      (assembleImm lo hi).extractLsb' 0 8 = lo ∧ (assembleImm lo hi).extractLsb' 8 8 = hi) ∧
  assembleImm 0x34 0x12 = 0x1234 ∧
  (∀ (b lo hi r : Byte) (tail : List Byte) (i : Instr), decode b (lo :: hi :: r :: tail) = .instr i →
    i.op.format = .immediate →
      i ∈ [Instr.movi, .addi, .subi, .muli, .imuli, .divi, .idivi].map
        fun mk => mk (assembleImm lo hi) (r.setWidth 4))

/-- R79: the 241 byte values 0..19, 22..29 and 42..254 raise UnrecognizedOpcode whatever follows, and no other
byte does. -/
def Obligations.TheOtherOpcodeBytesAreUnrecognized : Prop :=
  ∀ (b : Byte) (rest : List Byte),
    decode b rest = .raise (.unrecognizedOpcode b) ↔
      (b.toNat ≤ 19 ∨ (22 ≤ b.toNat ∧ b.toNat ≤ 29) ∨ (42 ≤ b.toNat ∧ b.toNat ≤ 254))

/-- R195 with R81: one instruction raises at most one error, the first in the order opcode, truncation, `reg` or
`src`, `dst`. The place of the source before the destination is the spec's own decision D7 (log 6); what the two
counts of a truncation count is its own decision D23 (log 15). -/
def Obligations.DecoderRaisesTheFirstErrorInOrder : Prop :=
  ∀ (b : Byte) (rest : List Byte) (e : FatalError), decode b rest = .raise e ↔
    ((opOfByte b = none ∧ e = .unrecognizedOpcode b) ∨
     ∃ o, opOfByte b = some o ∧
      ((1 + rest.length < o.len ∧ e = .truncated b o.len (1 + rest.length)) ∨
       (o.format = .immediate ∧ ∃ lo hi r tail, rest = lo :: hi :: r :: tail ∧ 10 ≤ r.toNat ∧
          e = .illegalRegister b .sole r) ∨
       (o.format = .register ∧ ∃ s d tail, rest = s :: d :: tail ∧
          ((10 ≤ s.toNat ∧ e = .illegalRegister b .source s) ∨
           (s.toNat ≤ 9 ∧ 10 ≤ d.toNat ∧ e = .illegalRegister b .destination d)))))

/-- R39: what a raised error records lies where the rule says, in every state. What the two counts of a truncation count
is the spec's own decision D23 (log 15). -/
def Obligations.RaisedErrorsHaveTheRecordedShape : Prop :=
  ∀ (s : State) (e : FatalError), fetch s = .ok (.raise e) → recordShape e = true

/-- R84: the decoder's outputs depend on `ib1` .. `ib3` only where `rem` shows the byte to lie inside B. -/
def Obligations.DecoderBlockIgnoresBytesBeyondRem : Prop :=
  ∀ (ib0 ib1 ib2 ib3 jb1 jb2 jb3 : Byte) (rem : BitVec 3), 1 ≤ rem.toNat → rem.toNat ≤ 4 →
    (2 ≤ rem.toNat → ib1 = jb1) → (3 ≤ rem.toNat → ib2 = jb2) → (4 ≤ rem.toNat → ib3 = jb3) →
      decoderBlock ib0 ib1 ib2 ib3 rem = decoderBlock ib0 jb1 jb2 jb3 rem ∧
        (decoderBlock ib0 ib1 ib2 ib3 rem).isSome = true

/-- R86: the assembler spelling of a well-formed instruction exists and is read back as it. The form printed and the
treatment of spaces are the model's choice (log 19). -/
def Obligations.AssemblerSpellingReadsBack : Prop :=
  ∀ i : Instr, i.wf = true → ∃ cs, asmOf i = some cs ∧ readAsm cs = some i

/-! ## Moves -/

/-- R110: MOVI. What the counts of a truncation count, a clause of `ImmFormOf`, is the spec's own decision D23 (log
15). -/
def Obligations.MoviLoadsTheImmediate : Prop :=
  ImmFormOf 20 .movi ∧
  ∀ (imm : Word) (reg : RegIdx) (s : State), reg.toNat ≤ 9 →
    ∃ t, exec (.movi imm reg) s = .next t ∧ inspectPort t.regs reg = some imm ∧
      t.pc = s.pc + 4 ∧ s.SlotsKept t [reg] ∧ s.RestKept t

/-- R111: MOVR. Two clauses of `RegFormOf` are the spec's own decisions: that two illegal register bytes raise the
source's error (D7, log 6), and what the counts of a truncation count (D23, log 15). -/
def Obligations.MovrCopiesTheSource : Prop :=
  RegFormOf 21 .movr ∧
  ∀ (src dst : RegIdx) (s : State), src.toNat ≤ 9 → dst.toNat ≤ 9 →
    ∃ t, exec (.movr src dst) s = .next t ∧ inspectPort t.regs dst = inspectPort s.regs src ∧
      t.pc = s.pc + 3 ∧ s.SlotsKept t [dst] ∧ s.RestKept t

/-! ## Add, subtract, multiply -/

/-- R122: ADDI. What the counts of a truncation count, a clause of `ImmFormOf`, is the spec's own decision D23 (log
15). -/
def Obligations.AddiAddsTheImmediate : Prop :=
  ImmFormOf 30 .addi ∧
  ∀ (imm : Word) (reg : RegIdx) (s : State) (a : Word), reg.toNat ≤ 9 → inspectPort s.regs reg = some a →
    ∃ t r, exec (.addi imm reg) s = .next t ∧ inspectPort t.regs reg = some r ∧
      r.toNat = (a.toNat + imm.toNat) % 65536 ∧ t.pc = s.pc + 4 ∧ s.SlotsKept t [reg] ∧ s.RestKept t

/-- R123: ADDR. Two clauses of `RegFormOf` are the spec's own decisions: that two illegal register bytes raise the
source's error (D7, log 6), and what the counts of a truncation count (D23, log 15). -/
def Obligations.AddrAddsTheSource : Prop :=
  RegFormOf 31 .addr ∧
  ∀ (src dst : RegIdx) (s : State) (a b : Word), src.toNat ≤ 9 → dst.toNat ≤ 9 →
    inspectPort s.regs dst = some a → inspectPort s.regs src = some b →
    ∃ t r, exec (.addr src dst) s = .next t ∧ inspectPort t.regs dst = some r ∧
      r.toNat = (a.toNat + b.toNat) % 65536 ∧ t.pc = s.pc + 3 ∧ s.SlotsKept t [dst] ∧ s.RestKept t

/-- R124: SUBI; `%` on integers is the non-negative representative. What the counts of a truncation count, a clause of
`ImmFormOf`, is the spec's own decision D23 (log 15). -/
def Obligations.SubiSubtractsTheImmediate : Prop :=
  ImmFormOf 32 .subi ∧
  ∀ (imm : Word) (reg : RegIdx) (s : State) (a : Word), reg.toNat ≤ 9 → inspectPort s.regs reg = some a →
    ∃ t r, exec (.subi imm reg) s = .next t ∧ inspectPort t.regs reg = some r ∧
      (r.toNat : Int) = ((a.toNat : Int) - imm.toNat) % 65536 ∧ t.pc = s.pc + 4 ∧
      s.SlotsKept t [reg] ∧ s.RestKept t

/-- R125: SUBR. Two clauses of `RegFormOf` are the spec's own decisions: that two illegal register bytes raise the
source's error (D7, log 6), and what the counts of a truncation count (D23, log 15). -/
def Obligations.SubrSubtractsTheSource : Prop :=
  RegFormOf 33 .subr ∧
  ∀ (src dst : RegIdx) (s : State) (a b : Word), src.toNat ≤ 9 → dst.toNat ≤ 9 →
    inspectPort s.regs dst = some a → inspectPort s.regs src = some b →
    ∃ t r, exec (.subr src dst) s = .next t ∧ inspectPort t.regs dst = some r ∧
      (r.toNat : Int) = ((a.toNat : Int) - b.toNat) % 65536 ∧ t.pc = s.pc + 3 ∧
      s.SlotsKept t [dst] ∧ s.RestKept t

/-- R126: MULI. What the counts of a truncation count, a clause of `ImmFormOf`, is the spec's own decision D23 (log
15). -/
def Obligations.MuliMultipliesByTheImmediate : Prop :=
  ImmFormOf 34 .muli ∧
  ∀ (imm : Word) (reg : RegIdx) (s : State) (a : Word), reg.toNat ≤ 9 → inspectPort s.regs reg = some a →
    ∃ t r, exec (.muli imm reg) s = .next t ∧ inspectPort t.regs reg = some r ∧
      r.toNat = (a.toNat * imm.toNat) % 65536 ∧ t.pc = s.pc + 4 ∧ s.SlotsKept t [reg] ∧ s.RestKept t

/-- R127: MULR. Two clauses of `RegFormOf` are the spec's own decisions: that two illegal register bytes raise the
source's error (D7, log 6), and what the counts of a truncation count (D23, log 15). -/
def Obligations.MulrMultipliesByTheSource : Prop :=
  RegFormOf 35 .mulr ∧
  ∀ (src dst : RegIdx) (s : State) (a b : Word), src.toNat ≤ 9 → dst.toNat ≤ 9 →
    inspectPort s.regs dst = some a → inspectPort s.regs src = some b →
    ∃ t r, exec (.mulr src dst) s = .next t ∧ inspectPort t.regs dst = some r ∧
      r.toNat = (a.toNat * b.toNat) % 65536 ∧ t.pc = s.pc + 3 ∧ s.SlotsKept t [dst] ∧ s.RestKept t

/-- R128: IMULI, the integer product of the two's-complement readings, modulo 65536; the result always equals MULI's
on the same bits. What the counts of a truncation count, a clause of `ImmFormOf`, is the spec's own decision D23 (log
15). -/
def Obligations.ImuliMultipliesSignedByTheImmediate : Prop :=
  ImmFormOf 36 .imuli ∧
  ∀ (imm : Word) (reg : RegIdx) (s : State) (a : Word), reg.toNat ≤ 9 → inspectPort s.regs reg = some a →
    ∃ t r, exec (.imuli imm reg) s = .next t ∧ inspectPort t.regs reg = some r ∧
      (r.toNat : Int) = (a.toInt * imm.toInt) % 65536 ∧ t.pc = s.pc + 4 ∧
      s.SlotsKept t [reg] ∧ s.RestKept t ∧ exec (.muli imm reg) s = .next t

/-- R129: IMULR. Two clauses of `RegFormOf` are the spec's own decisions: that two illegal register bytes raise the
source's error (D7, log 6), and what the counts of a truncation count (D23, log 15). -/
def Obligations.ImulrMultipliesSignedByTheSource : Prop :=
  RegFormOf 37 .imulr ∧
  ∀ (src dst : RegIdx) (s : State) (a b : Word), src.toNat ≤ 9 → dst.toNat ≤ 9 →
    inspectPort s.regs dst = some a → inspectPort s.regs src = some b →
    ∃ t r, exec (.imulr src dst) s = .next t ∧ inspectPort t.regs dst = some r ∧
      (r.toNat : Int) = (a.toInt * b.toInt) % 65536 ∧ t.pc = s.pc + 3 ∧
      s.SlotsKept t [dst] ∧ s.RestKept t

/-- R130: on every input, operands that are no legal registers included, IMULI does what MULI does and IMULR what
MULR does. -/
def Obligations.SignedAndUnsignedMultiplyAgree : Prop :=
  (∀ imm reg s, exec (.imuli imm reg) s = exec (.muli imm reg) s) ∧
  (∀ src dst s, exec (.imulr src dst) s = exec (.mulr src dst) s)

/-- R131: with two different registers ADDR then SUBR restores every register; with one register it leaves 0
there; ADDI then SUBI restores every register. Both instructions complete. -/
def Obligations.SubtractionUndoesAddition : Prop :=
  (∀ (src dst : RegIdx) (s : State), src.toNat ≤ 9 → dst.toNat ≤ 9 →
    ∃ t u, exec (.addr src dst) s = .next t ∧ exec (.subr src dst) t = .next u ∧
      (src ≠ dst → u.regs = s.regs) ∧ (src = dst → inspectPort u.regs dst = some 0)) ∧
  (∀ (imm : Word) (reg : RegIdx) (s : State), reg.toNat ≤ 9 →
    ∃ t u, exec (.addi imm reg) s = .next t ∧ exec (.subi imm reg) t = .next u ∧ u.regs = s.regs)

/-! ## Division -/

/-- R155: DIVI. What the counts of a truncation count, a clause of `ImmFormOf`, is the spec's own decision D23 (log
15). -/
def Obligations.DiviWritesQuotientAndRemainder : Prop :=
  ImmFormOf 38 .divi ∧
  ∀ (imm : Word) (reg : RegIdx) (s : State) (d : Word), reg.toNat ≤ 9 → inspectPort s.regs reg = some d →
    ∃ t, exec (.divi imm reg) s = .next t ∧ t.pc = s.pc + 4 ∧ s.RestKept t ∧
      (imm = 0 → s.SlotsKept t []) ∧
      (imm ≠ 0 → s.SlotsKept t [0, 1] ∧
        ∃ q r, inspectPort t.regs 0 = some q ∧ inspectPort t.regs 1 = some r ∧
          q.toNat = d.toNat / imm.toNat ∧ r.toNat = d.toNat % imm.toNat)

/-- R156: DIVR; both operands are read before either result is written, so `src` and `dst` may be 0 or 1. Two clauses
of `RegFormOf` are the spec's own decisions: that two illegal register bytes raise the source's error (D7, log 6), and
what the counts of a truncation count (D23, log 15). -/
def Obligations.DivrWritesQuotientAndRemainder : Prop :=
  RegFormOf 39 .divr ∧
  ∀ (src dst : RegIdx) (s : State) (d v : Word), src.toNat ≤ 9 → dst.toNat ≤ 9 →
    inspectPort s.regs dst = some d → inspectPort s.regs src = some v →
    ∃ t, exec (.divr src dst) s = .next t ∧ t.pc = s.pc + 3 ∧ s.RestKept t ∧
      (v = 0 → s.SlotsKept t []) ∧
      (v ≠ 0 → s.SlotsKept t [0, 1] ∧
        ∃ q r, inspectPort t.regs 0 = some q ∧ inspectPort t.regs 1 = some r ∧
          q.toNat = d.toNat / v.toNat ∧ r.toNat = d.toNat % v.toNat)

/-- R157 with R153: IDIVI. Rounding toward zero and the result of -32768 / -1 are the spec's own decisions D9 and D10
(logs 4 and 5); what the counts of a truncation count, a clause of `ImmFormOf`, is its own decision D23 (log 15). -/
def Obligations.IdiviWritesSignedQuotientAndRemainder : Prop :=
  ImmFormOf 40 .idivi ∧
  ∀ (imm : Word) (reg : RegIdx) (s : State) (d : Word), reg.toNat ≤ 9 → inspectPort s.regs reg = some d →
    ∃ t, exec (.idivi imm reg) s = .next t ∧ t.pc = s.pc + 4 ∧ s.RestKept t ∧
      (imm = 0 → s.SlotsKept t []) ∧
      (imm ≠ 0 → s.SlotsKept t [0, 1] ∧
        ∃ q r, inspectPort t.regs 0 = some q ∧ inspectPort t.regs 1 = some r ∧
          (q.toNat : Int) = Int.tdiv d.toInt imm.toInt % 65536 ∧
          (r.toNat : Int) = Int.tmod d.toInt imm.toInt % 65536)

/-- R158 with R153: IDIVR. Rounding toward zero and the result of -32768 / -1 are the spec's own decisions D9 and D10
(logs 4 and 5); so are two clauses of `RegFormOf`: that two illegal register bytes raise the source's error (D7, log 6),
and what the counts of a truncation count (D23, log 15). -/
def Obligations.IdivrWritesSignedQuotientAndRemainder : Prop :=
  RegFormOf 41 .idivr ∧
  ∀ (src dst : RegIdx) (s : State) (d v : Word), src.toNat ≤ 9 → dst.toNat ≤ 9 →
    inspectPort s.regs dst = some d → inspectPort s.regs src = some v →
    ∃ t, exec (.idivr src dst) s = .next t ∧ t.pc = s.pc + 3 ∧ s.RestKept t ∧
      (v = 0 → s.SlotsKept t []) ∧
      (v ≠ 0 → s.SlotsKept t [0, 1] ∧
        ∃ q r, inspectPort t.regs 0 = some q ∧ inspectPort t.regs 1 = some r ∧
          (q.toNat : Int) = Int.tdiv d.toInt v.toInt % 65536 ∧
          (r.toNat : Int) = Int.tmod d.toInt v.toInt % 65536)

/-- R154: the table of sign combinations, on IDIVR in any state with these operand values (logs 4 and 5). -/
def Obligations.SignedDivisionTable : Prop :=
  ∀ p ∈ ([(0x0007, 0x0002, 0x0003, 0x0001), (0xFFF9, 0x0002, 0xFFFD, 0xFFFF), (0x0007, 0xFFFE, 0xFFFD, 0x0001),
      (0xFFF9, 0xFFFE, 0x0003, 0xFFFF), (0xFFFF, 0x0002, 0x0000, 0xFFFF), (0x0000, 0xFFFB, 0x0000, 0x0000),
      (0x8000, 0x0001, 0x8000, 0x0000), (0x8000, 0x0002, 0xC000, 0x0000), (0x8000, 0xFFFF, 0x8000, 0x0000),
      (0x7FFF, 0xFFFF, 0x8001, 0x0000), (0x0001, 0x8000, 0x0000, 0x0001)] : List (Word × Word × Word × Word)),
    ∀ (src dst : RegIdx) (s : State), src.toNat ≤ 9 → dst.toNat ≤ 9 →
      inspectPort s.regs dst = some p.1 → inspectPort s.regs src = some p.2.1 →
      ∃ t, exec (.idivr src dst) s = .next t ∧ inspectPort t.regs 0 = some p.2.2.1 ∧
        inspectPort t.regs 1 = some p.2.2.2

/-- R151: a division by zero writes no register, raises nothing, does not stop the run, and the pc advances by the
length; for the signed forms the test is on the 16 bits. -/
def Obligations.DivisionByZeroIsANoOp : Prop :=
  (∀ (reg : RegIdx) (s : State), reg.toNat ≤ 9 →
    exec (.divi 0 reg) s = .next (s.withPc (s.pc + 4)) ∧ exec (.idivi 0 reg) s = .next (s.withPc (s.pc + 4))) ∧
  (∀ (src dst : RegIdx) (s : State), src.toNat ≤ 9 → dst.toNat ≤ 9 → inspectPort s.regs src = some 0 →
    exec (.divr src dst) s = .next (s.withPc (s.pc + 3)) ∧
      exec (.idivr src dst) s = .next (s.withPc (s.pc + 3))) ∧
  (∀ v : Word, v.toInt = 0 ↔ v = 0)

/-- R152: for a divisor other than zero both unsigned results fit, `quot <= D` and `rem < V`, and `quot * V + rem = D`
as naturals, in both forms. -/
def Obligations.UnsignedDivisionIdentity : Prop :=
  (∀ (imm : Word) (reg : RegIdx) (s : State) (d : Word), reg.toNat ≤ 9 → inspectPort s.regs reg = some d → imm ≠ 0 →
    ∃ t q r, exec (.divi imm reg) s = .next t ∧ inspectPort t.regs 0 = some q ∧ inspectPort t.regs 1 = some r ∧
      q.toNat = d.toNat / imm.toNat ∧ r.toNat = d.toNat % imm.toNat ∧
      q.toNat * imm.toNat + r.toNat = d.toNat ∧ r.toNat < imm.toNat ∧ q.toNat ≤ d.toNat) ∧
  (∀ (src dst : RegIdx) (s : State) (d v : Word), src.toNat ≤ 9 → dst.toNat ≤ 9 →
    inspectPort s.regs dst = some d → inspectPort s.regs src = some v → v ≠ 0 →
    ∃ t q r, exec (.divr src dst) s = .next t ∧ inspectPort t.regs 0 = some q ∧ inspectPort t.regs 1 = some r ∧
      q.toNat = d.toNat / v.toNat ∧ r.toNat = d.toNat % v.toNat ∧
      q.toNat * v.toNat + r.toNat = d.toNat ∧ r.toNat < v.toNat ∧ q.toNat ≤ d.toNat)

/-- R159, signed part, in both forms (D9 and D10, logs 4 and 5). -/
def Obligations.SignedDivisionIdentity : Prop :=
  (∀ (imm : Word) (reg : RegIdx) (s : State) (d : Word), reg.toNat ≤ 9 → inspectPort s.regs reg = some d → imm ≠ 0 →
    ∃ t q r, exec (.idivi imm reg) s = .next t ∧ inspectPort t.regs 0 = some q ∧ inspectPort t.regs 1 = some r ∧
      SignedDivisionLaw d imm q r) ∧
  (∀ (src dst : RegIdx) (s : State) (d v : Word), src.toNat ≤ 9 → dst.toNat ≤ 9 →
    inspectPort s.regs dst = some d → inspectPort s.regs src = some v → v ≠ 0 →
    ∃ t q r, exec (.idivr src dst) s = .next t ∧ inspectPort t.regs 0 = some q ∧ inspectPort t.regs 1 = some r ∧
      SignedDivisionLaw d v q r)

/-! ## Registers, flags and frames over all instructions -/

/-- R24: GP0 and GP1 are written by the divisions when the divisor is not zero, whatever registers they name, and no
instruction writes a register it does not name otherwise. -/
def Obligations.OnlyDivisionsWriteUnnamedRegisters : Prop :=
  (∀ (i : Instr) (s t : State), exec i s = .next t → s.SlotsKept t (writtenSlots i)) ∧
  (∀ (o : DivOp) (imm : Word) (reg : RegIdx) (s : State) (d : Word), reg.toNat ≤ 9 →
    inspectPort s.regs reg = some d → imm ≠ 0 →
    ∃ t, exec (match o with | .divu => .divi imm reg | .divs => .idivi imm reg) s = .next t ∧
      inspectPort t.regs 0 = some (aluQuot o d imm) ∧ inspectPort t.regs 1 = some (aluRem o d imm)) ∧
  (∀ (o : DivOp) (src dst : RegIdx) (s : State) (d v : Word), src.toNat ≤ 9 → dst.toNat ≤ 9 →
    inspectPort s.regs dst = some d → inspectPort s.regs src = some v → v ≠ 0 →
    ∃ t, exec (match o with | .divu => .divr src dst | .divs => .idivr src dst) s = .next t ∧
      inspectPort t.regs 0 = some (aluQuot o d v) ∧ inspectPort t.regs 1 = some (aluRem o d v))

/-- Every well-formed instruction completes in every state (R13: the instruction's own operation raises nothing). -/
def Obligations.WellFormedInstructionsComplete : Prop :=
  ∀ (i : Instr) (s : State), i.wf = true → ∃ t, exec i s = .next t

/-- R29, U1: an instruction with a register index of 10 or more, which the decoder never gives, is refused by the
register file's port, in every state (log 13). -/
def Obligations.IllFormedInstructionsAreRefused : Prop :=
  ∀ (i : Instr) (s : State), i.wf = false → ∃ k : RegIdx, 10 ≤ k.toNat ∧ exec i s = .refused (.registerPort k)

/-- R25, R42: FLAGS is written by no instruction and read by none: changing it changes nothing else of a step, and a
step leaves it as it is. -/
def Obligations.FlagsIsNeitherReadNorWritten : Prop :=
  (∀ s t, step s = .next t → t.flags = s.flags) ∧
  (∀ (s t : State) (v : Word), step s = .next t →
    step (s.withRegs (s.regs.set 10 v)) = .next (t.withRegs (t.regs.set 10 v)))

/-! ## The step -/

/-- R172: in the Running state, when the bytes at the pc are those of a well-formed instruction, the step is that
instruction's `exec`, and then the run is Halted if the pc is at the end of the buffer. Nothing more is added to the
pc. -/
def Obligations.StepRunsTheDecodedInstruction : Prop :=
  ∀ (s : State) (i : Instr), s.run = .running → i.wf = true →
    (∀ k (h : k < (encode i).length), memRead s (s.pc + k) = .ok (encode i)[k]) →
    (∀ t, exec i s = .next t → step s = .next (if t.pc = t.bufLen then t.withRun .halted else t)) ∧
    (∃ t, exec i s = .next t)

/-- R170: EXIT. -/
def Obligations.ExitHaltsWithoutAdvancing : Prop :=
  encode .exit = [0xFF] ∧ (∀ rest, decode 0xFF rest = .instr .exit) ∧
  (∀ s : State, ∃ t, exec .exit s = .next t ∧ t.run = .halted ∧ t.pc = s.pc ∧ t.regs = s.regs ∧ t.err = s.err ∧
    t.bufLen = s.bufLen ∧ ∀ a, memRead t a = memRead s a) ∧
  (∀ s : State, s.run = .running → memRead s s.pc = .ok 0xFF →
    step s = .next (s.withRun .halted) ∧ s.pc < s.bufLen)

/-- R191: a byte at the pc that is none of the 15 opcodes aborts the run with the raw byte, whatever else the buffer
holds; no other byte raises this error. -/
def Obligations.UnrecognizedOpcodeAborts : Prop :=
  ∀ (s : State) (b : Byte), s.run = .running → memRead s s.pc = .ok b →
    ((b.toNat ≤ 19 ∨ (22 ≤ b.toNat ∧ b.toNat ≤ 29) ∨ (42 ≤ b.toNat ∧ b.toNat ≤ 254)) →
      step s = .next { s with err := some (.unrecognizedOpcode b), run := .aborted }) ∧
    ((b.toNat = 20 ∨ b.toNat = 21 ∨ (30 ≤ b.toNat ∧ b.toNat ≤ 41) ∨ b.toNat = 255) →
      ∀ op, fetch s ≠ .ok (.raise (.unrecognizedOpcode op)))

/-- R192: a truncated instruction aborts the run with the opcode, the required and the remaining bytes, whatever
operand bytes are there or absent; EXIT is never truncated, and no other case raises the error. That both counts include
the opcode byte is the spec's own decision D23 (log 15). -/
def Obligations.TruncatedInstructionAborts : Prop :=
  ∀ (s : State) (b : Byte), s.run = .running → memRead s s.pc = .ok b →
    (b.toNat ∈ [20, 30, 32, 34, 36, 38, 40] → s.bufLen - s.pc < 4 →
      step s = .next { s with err := some (.truncated b 4 (s.bufLen - s.pc)), run := .aborted }) ∧
    (b.toNat ∈ [21, 31, 33, 35, 37, 39, 41] → s.bufLen - s.pc < 3 →
      step s = .next { s with err := some (.truncated b 3 (s.bufLen - s.pc)), run := .aborted }) ∧
    (b.toNat = 255 → fetch s = .ok (.instr .exit)) ∧
    (∀ op required remaining, fetch s = .ok (.raise (.truncated op required remaining)) →
      op = b ∧ remaining = s.bufLen - s.pc ∧ 1 ≤ remaining ∧ remaining ≤ 3 ∧ remaining < required ∧
        ((required = 4 ∧ b.toNat ∈ [20, 30, 32, 34, 36, 38, 40]) ∨
         (required = 3 ∧ b.toNat ∈ [21, 31, 33, 35, 37, 39, 41])))

/-- R193: a register byte of 10 or more aborts the run with its role and value; the source before the destination is
the spec's own decision D7 (log 6). -/
def Obligations.IllegalRegisterAborts : Prop :=
  (∀ (s : State) (b lo hi r : Byte), s.run = .running → b.toNat ∈ [20, 30, 32, 34, 36, 38, 40] →
    memRead s s.pc = .ok b → memRead s (s.pc + 1) = .ok lo → memRead s (s.pc + 2) = .ok hi →
    memRead s (s.pc + 3) = .ok r → 10 ≤ r.toNat →
    step s = .next { s with err := some (.illegalRegister b .sole r), run := .aborted }) ∧
  (∀ (s : State) (b x d : Byte), s.run = .running → b.toNat ∈ [21, 31, 33, 35, 37, 39, 41] →
    memRead s s.pc = .ok b → memRead s (s.pc + 1) = .ok x → memRead s (s.pc + 2) = .ok d →
    (10 ≤ x.toNat →
      step s = .next { s with err := some (.illegalRegister b .source x), run := .aborted }) ∧
    (x.toNat ≤ 9 → 10 ≤ d.toNat →
      step s = .next { s with err := some (.illegalRegister b .destination d), run := .aborted }))

/-- R196: when decoding raises an error the step sets err and the state Aborted; the pc, every register and all else
stay, and no number of further steps changes anything, so no instruction after it executes. That a step of an Aborted
state answers the same state, and does not stop, is the model's choice (log 12). -/
def Obligations.AbortIsPrecise : Prop :=
  ∀ (s : State) (e : FatalError), s.run = .running → fetch s = .ok (.raise e) →
    ∃ t, step s = .next t ∧ t.err = some e ∧ t.run = .aborted ∧ t.pc = s.pc ∧ t.regs = s.regs ∧
      t.bufLen = s.bufLen ∧ (∀ a, memRead t a = memRead s a) ∧ ∀ n, Host.Core.run Sys2Proof.core n t = .next t

/-- R38, R173: Halted and Aborted are terminal: any number of steps leaves them as they are (log 12). -/
def Obligations.TerminalStatesStay : Prop :=
  ∀ (n : Nat) (s : State), s.run ≠ .running → Host.Core.run Sys2Proof.core n s = .next s

/-- R173: what one step of a Running state can lead to, complete, with the condition, the pc and the registers of each
row: an abort with the error that decoding raised, EXIT, or an instruction's completion with what `exec` wrote. -/
def Obligations.RunningTransitionsAreComplete : Prop :=
  ∀ s t : State, s.run = .running → step s = .next t →
    (∃ e, fetch s = .ok (.raise e) ∧ t.run = .aborted ∧ t.pc = s.pc ∧ t.regs = s.regs ∧ t.err = some e) ∨
    (fetch s = .ok (.instr .exit) ∧ t.run = .halted ∧ t.pc = s.pc ∧ t.regs = s.regs ∧ t.err = s.err) ∨
    (∃ i u, i ≠ .exit ∧ fetch s = .ok (.instr i) ∧ exec i s = .next u ∧ t.regs = u.regs ∧ t.pc = s.pc + i.len ∧
      (i.len = 3 ∨ i.len = 4) ∧ t.err = s.err ∧
      ((t.pc < s.bufLen ∧ t.run = .running) ∨ (t.pc = s.bufLen ∧ t.run = .halted)))

/-- R51, R64: no step writes the instruction buffer, in any state. -/
def Obligations.BufferIsNeverWritten : Prop :=
  ∀ s t : State, step s = .next t → t.mem = s.mem ∧ t.bufLen = s.bufLen ∧ ∀ a, memRead t a = memRead s a

/-- R52, R83, R170, R192: what a fetch gives depends on the pc, on L, on the opcode byte, and on the operand bytes of
the instruction itself when one is decoded or its register bytes are illegal; bytes after it, and operand bytes of an
instruction that is unrecognized or truncated, may be anything or absent. -/
def Obligations.FetchReadsOnlyTheInstruction : Prop :=
  ∀ s t : State, t.pc = s.pc → t.bufLen = s.bufLen → memRead t s.pc = memRead s s.pc →
    (∀ i, fetch s = .ok (.instr i) → (∀ k, k < i.len → memRead t (s.pc + k) = memRead s (s.pc + k)) →
      fetch t = .ok (.instr i)) ∧
    (∀ op, fetch s = .ok (.raise (.unrecognizedOpcode op)) → fetch t = .ok (.raise (.unrecognizedOpcode op))) ∧
    (∀ op n k, fetch s = .ok (.raise (.truncated op n k)) → fetch t = .ok (.raise (.truncated op n k))) ∧
    (∀ op role v, fetch s = .ok (.raise (.illegalRegister op role v)) → ∃ o, opOfByte op = some o ∧
      ((∀ k, k < o.len → memRead t (s.pc + k) = memRead s (s.pc + k)) →
        fetch t = .ok (.raise (.illegalRegister op role v))))

/-- R177: control does not depend on data: two states that differ only in their registers take steps that differ
only in their registers. -/
def Obligations.ControlIsIndependentOfRegisters : Prop :=
  ∀ s t : State, s.SameButRegs t → OutcomesAgreeButRegs (step s) (step t)

/-- R2, R28, R84, R85, R120, R176: the four blocks wired together take the step, from every Running state that the
invariant allows. The ports are the spec's own decisions D3 to D6. -/
def Obligations.BlocksRefineTheStep : Prop :=
  ∀ s : State, s.Inv → s.run = .running → blockStep s = some (step s)

/-! ## Invariants and runs -/

/-- The state after construction is one the spec allows (R45, R220, R221). -/
def Obligations.ResetStateIsAllowed : Prop := State.reset.Inv

/-- R36, R37, R39, R42, R50, R174: every step keeps the invariant: the memory is canonical and holds exactly the bytes
of B, the pc is inside, Running means pc < L, err is set exactly in Aborted and is what decoding raises at the pc, a
halted run is at EXIT or at the end, FLAGS is 0. -/
def Obligations.StepKeepsTheInvariant : Prop :=
  ∀ s t : State, s.Inv → step s = .next t → t.Inv

/-- From every state the invariant allows, a step goes on: no fault and no refusal (R190: the three errors are all
there is, and taking one is a next state). That a Halted or Aborted state answers itself, and does not stop, is the
model's choice (log 12). -/
def Obligations.AllowedStatesAlwaysStep : Prop :=
  ∀ s : State, s.Inv → ∃ t, step s = .next t

/-- R175: every run ends: from every state the invariant allows, after `ceil((L - pc) / 3)` steps the run has ended,
and stays ended. That a run shorter than this count stands still in its ended state is the model's choice (log 12). -/
def Obligations.EveryRunEnds : Prop :=
  ∀ s : State, s.Inv → ∃ t, Host.Core.run Sys2Proof.core ((s.bufLen - s.pc + 2) / 3) s = .next t ∧
    State.Ended t ∧ ∀ n, (s.bufLen - s.pc + 2) / 3 ≤ n → Host.Core.run Sys2Proof.core n s = .next t

/-- R174: a run that has ended shows in one of three ways, which exclude each other: at an EXIT, at the end of the
buffer, or aborted with the error that decoding raises at the pc. -/
def Obligations.EndedRunsAreOfThreeKinds : Prop :=
  ∀ s : State, s.Inv → s.run ≠ .running →
    (s.run = .halted ∧ s.pc < s.bufLen ∧ memRead s s.pc = .ok 255 ∧ s.err = none) ∨
    (s.run = .halted ∧ s.pc = s.bufLen ∧ s.err = none) ∨
    (s.run = .aborted ∧ s.pc < s.bufLen ∧ ∃ e, s.err = some e ∧ fetch s = .ok (.raise e))

/-! ## The host -/

/-- R220, R221: construction sets every slot to 0, the state to Halted, the pc to 0 and err to None: the first one,
which is `State.reset`, and `por` asserted in any state but Running. That no buffer stands there then, and where `por`
may be asserted again, is the model's choice (log 7). -/
def Obligations.ConstructionClearsEverything : Prop :=
  (∀ i : RegIdx, i.toNat ≤ 10 → inspectPort State.reset.regs i = some 0) ∧
    State.reset.run = .halted ∧ State.reset.pc = 0 ∧ State.reset.err = none ∧ State.reset.bufLen = 0 ∧
    ∀ s : State, s.run ≠ .running → hostPor s = .next State.reset

/-- R171: a start from a terminal state sets pc 0, err None and Running, or Halted for an empty buffer; the registers
are not changed and the buffer holds the host's bytes at offsets 0..L-1 and nothing else. -/
def Obligations.StartBeginsARun : Prop :=
  ∀ (bs : List Byte) (s : State), s.run ≠ .running →
    ∃ t, hostStart bs s = .next t ∧ t.pc = 0 ∧ t.err = none ∧ t.regs = s.regs ∧ t.bufLen = bs.length ∧
      (∀ a (h : a < bs.length), memRead t a = .ok bs[a]) ∧
      (∀ a, bs.length ≤ a → memRead t a = .error (.outsideBuffer a)) ∧
      (bs = [] → t.run = .halted) ∧ (bs ≠ [] → t.run = .running)

/-- R201, R206, R228: a `por` (log 7), a start, or a read of a register or of the status, while a run is Running is
refused (log 16). -/
def Obligations.HostDutiesAreRefusedWhileRunning : Prop :=
  ∀ (bs : List Byte) (i : RegIdx) (s : State), s.run = .running →
    hostPor s = .refused .porWhileRunning ∧ hostStart bs s = .refused .startWhileRunning ∧
      hostInspect i s = .error .inspectWhileRunning ∧
      hostReadStatus s = .error .inspectWhileRunning

/-- The host's moves lead from a state the spec allows to one it allows (R171, R220, R228), and construction itself
does. -/
def Obligations.HostMovesKeepTheInvariant : Prop :=
  State.reset.Inv ∧ ∀ (m : HostMove) (s t : State), s.Inv → hostMove m s = .next t → t.Inv

/-- R194: the status outputs tell the errors of the allowed states apart: equal outputs mean equal run state, pc and
error record. The codes are the spec's own decision D8 (log 15). -/
def Obligations.StatusOutputsDetermineTheError : Prop :=
  ∀ s t : State, s.Inv → t.Inv → s.status = t.status → s.run = t.run ∧ s.pc = t.pc ∧ s.err = t.err

/-- R194: the status outputs of each error, with unused fields 0 (D8, log 15). -/
def Obligations.StatusOutputsEncodeTheRecord : Prop :=
  ∀ s : State,
    s.status.state = (match s.run with | .running => 0 | .halted => 1 | .aborted => 2) ∧ s.status.pc = s.pc ∧
    (s.err = none → (s.status.errCode, s.status.errOp, s.status.errRequired, s.status.errRemaining,
      s.status.errRole, s.status.errValue) = (0, 0, 0, 0, 0, 0)) ∧
    (∀ op, s.err = some (.unrecognizedOpcode op) → (s.status.errCode, s.status.errOp, s.status.errRequired,
      s.status.errRemaining, s.status.errRole, s.status.errValue) = (1, op, 0, 0, 0, 0)) ∧
    (∀ op (n k : BitVec 3), s.err = some (.truncated op n.toNat k.toNat) → (s.status.errCode, s.status.errOp,
      s.status.errRequired, s.status.errRemaining, s.status.errRole, s.status.errValue) = (2, op, n, k, 0, 0)) ∧
    (∀ op role v, s.err = some (.illegalRegister op role v) → (s.status.errCode, s.status.errOp, s.status.errRequired,
      s.status.errRemaining, s.status.errRole, s.status.errValue) =
        (3, op, 0, 0, (match role with | .source => 0 | .destination => 1 | .sole => 2), v))

/-- Placing a table word to fetch in the reset state is the host's start on its bytes (R171; log 3). -/
def Obligations.WithFetchWordIsAStartOnReset : Prop :=
  ∀ nbits w : Nat, hostStart (tableBytes nbits w) State.reset = .next (State.reset.withFetchWord nbits w)

/-- R28, R207: in a terminal state, construction included, the host reads each slot 0 to 10 on the inspection port and
the status outputs. The refusal of the indices 11 to 15 is the model's (log 13). -/
def Obligations.HostReadsAnswerBetweenRuns : Prop :=
  ∀ s : State, s.run ≠ .running →
    (∀ i : RegIdx, i.toNat ≤ 10 → ∃ v, inspectPort s.regs i = some v ∧ hostInspect i s = .ok v) ∧
    (∀ i : RegIdx, 11 ≤ i.toNat → hostInspect i s = .error (.registerPort i)) ∧
    hostReadStatus s = .ok s.status

/-- R201: nothing can stop a run from outside before it ends: in Running every move of the host is refused, so a move
that goes on was made between runs. That such a move is refused is the model's form of it (logs 7 and 16). -/
def Obligations.NoHostMoveStopsARun : Prop :=
  ∀ (m : HostMove) (s : State),
    (s.run = .running → ∃ r, hostMove m s = .refused r) ∧ (s.run ≠ .running → ∃ t, hostMove m s = .next t)
end

