-- ==== Sys2Proof/Laws/Arith.lean ====
section
/-! SUPPORT. The value functions of R10 in the terms of the library, and the ranges of their results. -/

namespace Sys2Proof.Machine

/-- `trunc16` is `z mod 65536`. -/
theorem trunc16_toNat (z : Int) : ((trunc16 z).toNat : Int) = z % 65536 := by
  have h0 : 0 ≤ z % 65536 := Int.emod_nonneg _ (by decide)
  have h1 : z % 65536 < 65536 := Int.emod_lt_of_pos _ (by decide)
  rw [trunc16, BitVec.toNat_ofNat, Nat.mod_eq_of_lt (by omega)]
  omega

/-- On naturals, `trunc16` keeps the low 16 bits. -/
theorem trunc16_natCast_toNat (n : Nat) : (trunc16 (n : Int)).toNat = n % 65536 := by
  have h := trunc16_toNat (n : Int)
  omega

/-- A natural below 65536 is not changed by `trunc16`. -/
theorem trunc16_natCast_of_lt {n : Nat} (h : n < 65536) : (trunc16 (n : Int)).toNat = n := by
  rw [trunc16_natCast_toNat, Nat.mod_eq_of_lt h]

/-- Equal integers modulo 65536 truncate alike. -/
theorem trunc16_congr {y z : Int} (h : y % 65536 = z % 65536) : trunc16 y = trunc16 z := by
  rw [trunc16, trunc16, h]

/-- `signed16` is the library's two's-complement reading. -/
theorem signed16_eq_toInt (v : Word) : signed16 v = v.toInt := by
  rw [signed16, BitVec.toInt_eq_toNat_cond]
  have := v.isLt
  split <;> split <;> omega

/-- `signed16(v)` and `v` are equal modulo 65536 (R130). -/
theorem signed16_emod (v : Word) : signed16 v % 65536 = (v.toNat : Int) := by
  have := v.isLt
  unfold signed16
  split <;> omega

/-- The range of `signed16`. -/
theorem signed16_range (v : Word) : -32768 ≤ signed16 v ∧ signed16 v ≤ 32767 := by
  have := v.isLt
  unfold signed16
  split <;> omega

/-- For the signed forms the zero test is on the 16 bits (R151). -/
theorem signed16_eq_zero (v : Word) : signed16 v = 0 ↔ v = 0 := by
  rw [← BitVec.toNat_inj]
  have := v.isLt
  have h0 : (0 : Word).toNat = 0 := rfl
  unfold signed16
  rw [h0]
  split <;> omega

/-- The remainder of R10 is the library's remainder toward zero. -/
theorem trem_eq_tmod (a b : Int) : trem a b = Int.tmod a b := by
  rw [trem, tdiv, Int.tmod_def]

end Sys2Proof.Machine
end

