-- ==== Sys2Proof/Laws/Decode.lean ====
section
/-! SUPPORT. The opcode map, the operand bytes and the operand decoders, each with the one lemma that says what
it answers. -/

namespace Sys2Proof

/-! ## The opcode map -/

theorem mem_allOps (o : Op) : o ∈ allOps := by cases o <;> decide

theorem Op.code_injective {o p : Op} (h : o.code = p.code) : o = p := by
  revert h; cases o <;> cases p <;> decide

theorem opOfByte_code (o : Op) : opOfByte o.code = some o := by cases o <;> decide

/-- An opcode byte selects an instruction by its whole value (R77). -/
theorem opOfByte_eq_some_iff {b : Byte} {o : Op} : opOfByte b = some o ↔ b = o.code := by
  constructor
  · intro h
    have := List.find?_some h
    simpa using Eq.symm (by simpa using this)
  · rintro rfl; exact opOfByte_code o

/-- The bytes that are no opcode. -/
theorem opOfByte_eq_none_iff {b : Byte} : opOfByte b = none ↔ ∀ o : Op, b ≠ o.code := by
  constructor
  · rintro h o rfl; rw [opOfByte_code] at h; cases h
  · intro h
    cases hb : opOfByte b with
    | none => rfl
    | some o => exact absurd (opOfByte_eq_some_iff.mp hb) (h o)

/-! ## Immediates and register bytes -/

/-- The two immediate bytes of a word assemble to it. -/
theorem assembleImm_split (w : Word) : assembleImm (immLo w) (immHi w) = w := by
  apply BitVec.eq_of_getLsbD_eq
  intro i hi
  simp only [assembleImm, immLo, immHi, BitVec.getLsbD_or, BitVec.getLsbD_setWidth, BitVec.getLsbD_shiftLeft,
    BitVec.getLsbD_extractLsb']
  by_cases h : i < 8
  · simp [h, hi]
  · have h8 : 8 + (i - 8) = i := by omega
    have hs : i - 8 < 8 := by omega
    have ht : i - 8 < 16 := by omega
    simp [h, hi, h8, hs, ht]

theorem immLo_assembleImm (lo hi : Byte) : immLo (assembleImm lo hi) = lo := by
  apply BitVec.eq_of_getLsbD_eq
  intro i h
  have h16 : i < 16 := by omega
  simp [assembleImm, immLo, h, h16]

theorem immHi_assembleImm (lo hi : Byte) : immHi (assembleImm lo hi) = hi := by
  apply BitVec.eq_of_getLsbD_eq
  intro i h
  have h16 : 8 + i < 16 := by omega
  simp [assembleImm, immHi, h, h16]

theorem regByte_toNat (i : RegIdx) : (regByte i).toNat = i.toNat := by
  have := i.isLt
  simp [regByte]; omega

theorem regByte_lt {i : RegIdx} (h : legalReg i = true) : (regByte i).toNat < Config.flagsIndex := by
  rw [regByte_toNat]; exact decide_eq_true_iff.mp h

theorem setWidth_regByte (i : RegIdx) : (regByte i).setWidth 4 = i := by
  apply BitVec.eq_of_toNat_eq
  have := i.isLt
  rw [BitVec.toNat_setWidth, regByte_toNat]
  omega

/-- A legal register byte narrows to the index it spells. -/
theorem regByte_setWidth {r : Byte} (h : r.toNat < Config.flagsIndex) :
    legalReg (r.setWidth 4) = true ∧ regByte (r.setWidth 4) = r := by
  have h10 : r.toNat < 10 := h
  have hn : (r.setWidth 4).toNat = r.toNat := by rw [BitVec.toNat_setWidth]; omega
  refine ⟨decide_eq_true_iff.mpr (by rw [hn]; exact h), ?_⟩
  apply BitVec.eq_of_toNat_eq
  rw [regByte_toNat, hn]

/-! ## Operand decoders -/

theorem decodeReg_legal (o : Op) (role : RegRole) {i : RegIdx} (h : legalReg i = true) (k : RegIdx → Decoded) :
    decodeReg o role (regByte i) k = k i := by
  rw [decodeReg, if_pos (regByte_lt h), setWidth_regByte]

/-- A register byte either is legal, and decoding goes on with its index, or raises. -/
theorem decodeReg_cases (o : Op) (role : RegRole) (r : Byte) (k : RegIdx → Decoded) :
    (r.toNat < 10 ∧ decodeReg o role r k = k (r.setWidth 4)) ∨
      (10 ≤ r.toNat ∧ decodeReg o role r k = .raise (.illegalRegister o.code role r)) := by
  unfold decodeReg
  split
  · rename_i h; exact .inl ⟨h, rfl⟩
  · rename_i h; exact .inr ⟨Nat.le_of_not_lt h, rfl⟩

/-- Format I on three operand bytes or more. -/
theorem decodeImmForm_cons (o : Op) (mk : Word → RegIdx → Instr) (lo hi r : Byte) (tail : List Byte) :
    decodeImmForm o mk (lo :: hi :: r :: tail) =
      decodeReg o .sole r fun i => .instr (mk (assembleImm lo hi) i) := rfl

/-- Format R on two operand bytes or more. -/
theorem decodeRegForm_cons (o : Op) (mk : RegIdx → RegIdx → Instr) (s d : Byte) (tail : List Byte) :
    decodeRegForm o mk (s :: d :: tail) =
      decodeReg o .source s fun i => decodeReg o .destination d fun j => .instr (mk i j) := rfl

/-- What format I can answer: an instruction from three bytes, or an error. -/
theorem decodeImmForm_instr {o : Op} {mk : Word → RegIdx → Instr} {bs : List Byte} {i : Instr}
    (h : decodeImmForm o mk bs = .instr i) :
    ∃ lo hi r tail, bs = lo :: hi :: r :: tail ∧ r.toNat < 10 ∧ i = mk (assembleImm lo hi) (r.setWidth 4) := by
  match bs, h with
  | lo :: hi :: r :: tail, h =>
      rw [decodeImmForm_cons] at h
      rcases decodeReg_cases o .sole r fun j => .instr (mk (assembleImm lo hi) j) with ⟨hr, he⟩ | ⟨_, he⟩
      · rw [he] at h; cases h; exact ⟨lo, hi, r, tail, rfl, hr, rfl⟩
      · rw [he] at h; cases h
  | [], h => cases h
  | [_], h => cases h
  | [_, _], h => cases h

/-- What format R can answer: an instruction from two bytes, or an error. -/
theorem decodeRegForm_instr {o : Op} {mk : RegIdx → RegIdx → Instr} {bs : List Byte} {i : Instr}
    (h : decodeRegForm o mk bs = .instr i) :
    ∃ s d tail, bs = s :: d :: tail ∧ s.toNat < 10 ∧ d.toNat < 10 ∧ i = mk (s.setWidth 4) (d.setWidth 4) := by
  match bs, h with
  | s :: d :: tail, h =>
      rw [decodeRegForm_cons] at h
      rcases decodeReg_cases o .source s fun i => decodeReg o .destination d fun j => .instr (mk i j) with
        ⟨hs, he⟩ | ⟨_, he⟩
      · rw [he] at h
        rcases decodeReg_cases o .destination d fun j => .instr (mk (s.setWidth 4) j) with
          ⟨hd, he⟩ | ⟨_, he⟩
        · rw [he] at h; cases h; exact ⟨s, d, tail, rfl, hs, hd, rfl⟩
        · rw [he] at h; cases h
      · rw [he] at h; cases h
  | [], h => cases h
  | [_], h => cases h

/-- Steps 1 to 3, once for all. -/
theorem decodeOpcode_ok_iff {b : Byte} {n : Nat} {o : Op} :
    decodeOpcode b n = .ok o ↔ b = o.code ∧ o.len ≤ n := by
  unfold decodeOpcode
  split
  · rename_i h
    refine ⟨fun h => (by cases h), fun ⟨hb, _⟩ => absurd hb (opOfByte_eq_none_iff.mp h o)⟩
  · rename_i p h
    have hp := opOfByte_eq_some_iff.mp h
    split
    · rename_i hlt
      refine ⟨fun h => (by cases h), fun ⟨hb, hle⟩ => ?_⟩
      have : o = p := Op.code_injective (hb.symm.trans hp)
      subst this; omega
    · rename_i hge
      constructor
      · intro h; cases h; exact ⟨hp, Nat.le_of_not_lt hge⟩
      · rintro ⟨hb, _⟩
        rw [Op.code_injective (hb.symm.trans hp)]

/-- Steps 1 to 3 raise one of two errors. -/
theorem decodeOpcode_error_cases {b : Byte} {n : Nat} {e : FatalError} (h : decodeOpcode b n = .error e) :
    (e = .unrecognizedOpcode b ∧ ∀ o : Op, b ≠ o.code) ∨
      ∃ o : Op, b = o.code ∧ n < o.len ∧ e = .truncated b o.len n := by
  unfold decodeOpcode at h
  split at h
  · rename_i hb; cases h; exact .inl ⟨rfl, opOfByte_eq_none_iff.mp hb⟩
  · rename_i o hb
    split at h
    · rename_i hlt; cases h; exact .inr ⟨o, opOfByte_eq_some_iff.mp hb, hlt, rfl⟩
    · cases h

/-- Every opcode is one, three or four bytes long with its instruction. -/
theorem Op.len_range (o : Op) : 1 ≤ o.len ∧ o.len ≤ 4 := by cases o <;> decide

/-- Only EXIT is shorter than three bytes. -/
theorem Op.three_le_len {o : Op} (h : o ≠ .exit) : 3 ≤ o.len := by
  revert h; cases o <;> decide

end Sys2Proof
end

