-- ==== Sys2Proof/Laws/State.lean ====
section
/-! SUPPORT. One lemma per field per update of the state, so that no proof unfolds an update. -/

namespace Sys2Proof.Machine

section Updates
variable (s : State) (x : RegFile) (n l : Nat) (r : RunState) (e : Option FatalError) (m : Memory)

@[simp] theorem State.withRegs_regs : (s.withRegs x).regs = x := rfl
@[simp] theorem State.withRegs_pc : (s.withRegs x).pc = s.pc := rfl
@[simp] theorem State.withRegs_run : (s.withRegs x).run = s.run := rfl
@[simp] theorem State.withRegs_err : (s.withRegs x).err = s.err := rfl
@[simp] theorem State.withRegs_mem : (s.withRegs x).mem = s.mem := rfl
@[simp] theorem State.withRegs_bufLen : (s.withRegs x).bufLen = s.bufLen := rfl

@[simp] theorem State.withPc_regs : (s.withPc n).regs = s.regs := rfl
@[simp] theorem State.withPc_pc : (s.withPc n).pc = n := rfl
@[simp] theorem State.withPc_run : (s.withPc n).run = s.run := rfl
@[simp] theorem State.withPc_err : (s.withPc n).err = s.err := rfl
@[simp] theorem State.withPc_mem : (s.withPc n).mem = s.mem := rfl
@[simp] theorem State.withPc_bufLen : (s.withPc n).bufLen = s.bufLen := rfl

@[simp] theorem State.withRun_regs : (s.withRun r).regs = s.regs := rfl
@[simp] theorem State.withRun_pc : (s.withRun r).pc = s.pc := rfl
@[simp] theorem State.withRun_run : (s.withRun r).run = r := rfl
@[simp] theorem State.withRun_err : (s.withRun r).err = s.err := rfl
@[simp] theorem State.withRun_mem : (s.withRun r).mem = s.mem := rfl
@[simp] theorem State.withRun_bufLen : (s.withRun r).bufLen = s.bufLen := rfl

@[simp] theorem State.withErr_regs : (s.withErr e).regs = s.regs := rfl
@[simp] theorem State.withErr_pc : (s.withErr e).pc = s.pc := rfl
@[simp] theorem State.withErr_run : (s.withErr e).run = s.run := rfl
@[simp] theorem State.withErr_err : (s.withErr e).err = e := rfl
@[simp] theorem State.withErr_mem : (s.withErr e).mem = s.mem := rfl
@[simp] theorem State.withErr_bufLen : (s.withErr e).bufLen = s.bufLen := rfl

@[simp] theorem State.withBuffer_regs : (s.withBuffer m l).regs = s.regs := rfl
@[simp] theorem State.withBuffer_pc : (s.withBuffer m l).pc = s.pc := rfl
@[simp] theorem State.withBuffer_run : (s.withBuffer m l).run = s.run := rfl
@[simp] theorem State.withBuffer_err : (s.withBuffer m l).err = s.err := rfl
@[simp] theorem State.withBuffer_mem : (s.withBuffer m l).mem = m := rfl
@[simp] theorem State.withBuffer_bufLen : (s.withBuffer m l).bufLen = l := rfl

end Updates

section Abort
variable (e : FatalError) (s : State)

@[simp] theorem State.abort_regs : (s.abort e).regs = s.regs := rfl
@[simp] theorem State.abort_pc : (s.abort e).pc = s.pc := rfl
@[simp] theorem State.abort_run : (s.abort e).run = .aborted := rfl
@[simp] theorem State.abort_err : (s.abort e).err = some e := rfl
@[simp] theorem State.abort_mem : (s.abort e).mem = s.mem := rfl
@[simp] theorem State.abort_bufLen : (s.abort e).bufLen = s.bufLen := rfl

end Abort

section Exhaust
variable (s : State)

@[simp] theorem State.exhaust_regs : s.exhaust.regs = s.regs := by unfold State.exhaust; split <;> rfl
@[simp] theorem State.exhaust_pc : s.exhaust.pc = s.pc := by unfold State.exhaust; split <;> rfl
@[simp] theorem State.exhaust_err : s.exhaust.err = s.err := by unfold State.exhaust; split <;> rfl
@[simp] theorem State.exhaust_mem : s.exhaust.mem = s.mem := by unfold State.exhaust; split <;> rfl
@[simp] theorem State.exhaust_bufLen : s.exhaust.bufLen = s.bufLen := by
  unfold State.exhaust; split <;> rfl

theorem State.exhaust_run : s.exhaust.run = if s.pc = s.bufLen then .halted else s.run := by
  unfold State.exhaust; split <;> rfl

end Exhaust

section Started
variable (bs : List Byte) (s : State)

@[simp] theorem State.started_regs : (s.started bs).regs = s.regs := rfl
@[simp] theorem State.started_pc : (s.started bs).pc = 0 := rfl
@[simp] theorem State.started_run :
    (s.started bs).run = if bs.length = 0 then .halted else .running := rfl
@[simp] theorem State.started_err : (s.started bs).err = none := rfl
@[simp] theorem State.started_mem : (s.started bs).mem = Memory.layout 0 bs := rfl
@[simp] theorem State.started_bufLen : (s.started bs).bufLen = bs.length := rfl

end Started

section BetweenRuns
variable {r : Refusal} {t u s : State}

/-- All that a move between runs can do when it goes on. -/
theorem betweenRuns_next_iff : betweenRuns r t s = .next u ↔ s.run ≠ .running ∧ u = t := by
  unfold betweenRuns; cases s.run <;> simp [eq_comm]

/-- In the Running state it is refused. -/
theorem betweenRuns_running (h : s.run = .running) : betweenRuns r t s = .refused r := by
  unfold betweenRuns; rw [h]

end BetweenRuns

/-- A byte read depends on the buffer alone. -/
theorem memRead_congr {s t : State} (hm : t.mem = s.mem) (hl : t.bufLen = s.bufLen) (a : Nat) :
    memRead t a = memRead s a := by simp [memRead, hm, hl]

end Sys2Proof.Machine
end

