-- ==== Sys2Proof/Laws/Memory.lean ====
section
/-! SUPPORT. The laws of the instruction buffer: what a read gives after `put` and `layout`, and that every
memory operation keeps the canonical form. -/

namespace Sys2Proof.Machine

/-! ## Reads -/

theorem Memory.read_put_same (m : Memory) (a : Nat) (b : Byte) : Memory.read (Memory.put m a b) a = some b := by
  induction m with
  | nil => simp [Memory.put, Memory.read]
  | cons p m ih =>
      obtain ⟨k, v⟩ := p
      unfold Memory.put
      split
      · simp [Memory.read]
      · split
        · simp [Memory.read]
        · simp_all [Memory.read]

theorem Memory.read_put_other (m : Memory) {a c : Nat} (b : Byte) (h : c ≠ a) :
    Memory.read (Memory.put m a b) c = Memory.read m c := by
  induction m with
  | nil => simp [Memory.put, Memory.read, h]
  | cons p m ih =>
      obtain ⟨k, v⟩ := p
      unfold Memory.put
      split
      · simp [Memory.read, h]
      · split
        · rename_i heq; subst heq; simp [Memory.read, h]
        · simp [Memory.read, ih]

/-- Bytes put from `a` on are read back there, and nothing else changes. -/
theorem Memory.read_putBytes (bs : List Byte) (m : Memory) (a c : Nat) :
    Memory.read (Memory.putBytes m a bs) c =
      if a ≤ c ∧ c < a + bs.length then bs[c - a]? else Memory.read m c := by
  induction bs generalizing m a with
  | nil => simp [Memory.putBytes]
  | cons b bs ih =>
      rw [Memory.putBytes, ih]
      by_cases h : c = a
      · subst h; simp [Memory.read_put_same]
      · by_cases h1 : a + 1 ≤ c ∧ c < a + 1 + bs.length
        · have h2 : a ≤ c ∧ c < a + (b :: bs).length := by simp; omega
          rw [if_pos h1, if_pos h2, show c - a = (c - (a + 1)) + 1 by omega, List.getElem?_cons_succ]
        · have h2 : ¬ (a ≤ c ∧ c < a + (b :: bs).length) := by simp; omega
          rw [if_neg h1, if_neg h2, Memory.read_put_other _ _ h]

/-- A buffer laid out from `a` on holds exactly its bytes. -/
theorem Memory.read_layout (bs : List Byte) (a c : Nat) :
    Memory.read (Memory.layout a bs) c = if a ≤ c then bs[c - a]? else none := by
  induction bs generalizing a with
  | nil => simp [Memory.layout, Memory.read]
  | cons b bs ih =>
      rw [Memory.layout, Memory.read]
      by_cases h : c = a
      · simp [h]
      · rw [if_neg h, ih]
        by_cases h1 : a + 1 ≤ c
        · rw [if_pos h1, if_pos (by omega), show c - a = (c - (a + 1)) + 1 by omega,
            List.getElem?_cons_succ]
        · rw [if_neg h1, if_neg (by omega)]

/-- The byte read of a state, once for all: it answers a byte exactly when one is listed below L. -/
theorem memRead_ok_iff {s : State} {a : Nat} {b : Byte} :
    memRead s a = .ok b ↔ a < s.bufLen ∧ Memory.read s.mem a = some b := by
  unfold memRead
  split
  · split <;> simp_all
  · simp_all

/-- `MemRead(a, 1) = B[a]` in the state a run of `bs` starts in (R11, R171). -/
theorem memRead_started (bs : List Byte) (s : State) {a : Nat} (h : a < bs.length) :
    memRead (s.started bs) a = .ok bs[a] := by
  rw [memRead_ok_iff]
  simp [Memory.read_layout, h]

/-! ## The canonical form -/

theorem Memory.wf_nil : Memory.wf [] := List.Pairwise.nil

/-- Every offset of `put m a b` is `a` or one of `m`. -/
theorem Memory.mem_put {m : Memory} {a : Nat} {b : Byte} {p : Host.Cell} (h : p ∈ Memory.put m a b) :
    p.1 = a ∨ p ∈ m := by
  induction m with
  | nil => simp_all [Memory.put]
  | cons q m ih =>
      obtain ⟨k, v⟩ := q
      unfold Memory.put at h
      split at h
      · simp only [List.mem_cons] at h ⊢
        rcases h with rfl | h
        · exact .inl rfl
        · exact .inr h
      · split at h
        · simp only [List.mem_cons] at h ⊢
          rcases h with rfl | h
          · exact .inl rfl
          · exact .inr (.inr h)
        · simp only [List.mem_cons] at h ⊢
          rcases h with rfl | h
          · exact .inr (.inl rfl)
          · rcases ih h with h | h
            · exact .inl h
            · exact .inr (.inr h)

theorem Memory.put_wf {m : Memory} (a : Nat) (b : Byte) (h : Memory.wf m) : Memory.wf (Memory.put m a b) := by
  induction m with
  | nil => simp [Memory.put, Memory.wf]
  | cons q m ih =>
      obtain ⟨k, v⟩ := q
      have hk := (List.pairwise_cons.mp h).1
      have hm := (List.pairwise_cons.mp h).2
      unfold Memory.put
      split
      · rename_i hlt
        refine List.pairwise_cons.mpr ⟨fun p hp => ?_, h⟩
        rcases List.mem_cons.mp hp with rfl | hp
        · exact hlt
        · exact Nat.lt_trans hlt (hk p hp)
      · split
        · rename_i heq
          subst heq
          exact List.pairwise_cons.mpr ⟨hk, hm⟩
        · refine List.pairwise_cons.mpr ⟨fun p hp => ?_, ih hm⟩
          rcases Memory.mem_put hp with h1 | h1
          · simp only at h1 ⊢; omega
          · exact hk p h1

theorem Memory.putBytes_wf (bs : List Byte) {m : Memory} (a : Nat) (h : Memory.wf m) :
    Memory.wf (Memory.putBytes m a bs) := by
  induction bs generalizing m a with
  | nil => exact h
  | cons b bs ih => exact ih (a + 1) (Memory.put_wf a b h)

theorem Memory.le_of_mem_layout {bs : List Byte} {a : Nat} {p : Host.Cell} (h : p ∈ Memory.layout a bs) :
    a ≤ p.1 := by
  induction bs generalizing a with
  | nil => simp [Memory.layout] at h
  | cons b bs ih =>
      rcases List.mem_cons.mp h with rfl | h
      · exact Nat.le_refl _
      · exact Nat.le_of_succ_le (ih h)

theorem Memory.layout_wf (bs : List Byte) (a : Nat) : Memory.wf (Memory.layout a bs) := by
  induction bs generalizing a with
  | nil => exact Memory.wf_nil
  | cons b bs ih =>
      exact List.pairwise_cons.mpr ⟨fun p hp => Memory.le_of_mem_layout hp, ih (a + 1)⟩

/-- The reset memory has the canonical form. -/
theorem State.reset_mem_wf : Memory.wf State.reset.mem := Memory.wf_nil

/-- Presenting a buffer leaves a canonical memory. -/
theorem State.started_mem_wf (bs : List Byte) (s : State) : Memory.wf (s.started bs).mem :=
  Memory.layout_wf bs 0

/-- Placing an instruction to fetch keeps the canonical form. -/
theorem placeForFetch_mem_wf (bs : List Byte) {s : State} (h : Memory.wf s.mem) :
    Memory.wf (placeForFetch bs s).mem := Memory.putBytes_wf bs s.pc h

end Sys2Proof.Machine
end

