-- ==== Sys2Proof/Laws/Registers.lean ====
section
/-! SUPPORT. What the register file's ports can do: reads, `commit` and inspection. -/

namespace Sys2Proof.Machine

/-- A legal index as a bound. -/
theorem legalReg_iff {i : RegIdx} : legalReg i = true ↔ i.toNat < 10 := decide_eq_true_iff

/-- The register file with one slot replaced. -/
def setSlot (x : RegFile) (i : RegIdx) (v : Word) : RegFile := x.setIfInBounds i.toNat v

/-- Inspecting a slot after one is replaced. -/
theorem inspectPort_setSlot (x : RegFile) (i j : RegIdx) (v : Word) (hi : legalReg i = true) :
    inspectPort (setSlot x i v) j = if i = j then some v else inspectPort x j := by
  rw [legalReg_iff] at hi
  have hn : i.toNat < Config.numSlots := Nat.lt_trans hi (by decide)
  simp [inspectPort, setSlot, Vector.getElem?_setIfInBounds, BitVec.toNat_inj, hn]

theorem inspectPort_setSlot_same (x : RegFile) {i : RegIdx} (v : Word) (hi : legalReg i = true) :
    inspectPort (setSlot x i v) i = some v := by simp [inspectPort_setSlot, hi]

theorem inspectPort_setSlot_other (x : RegFile) {i j : RegIdx} (v : Word) (hi : legalReg i = true)
    (h : j ≠ i) : inspectPort (setSlot x i v) j = inspectPort x j := by
  simp [inspectPort_setSlot, hi, Ne.symm h]

/-- Two register files with the same slots are equal. -/
theorem RegFile.ext_inspect {x y : RegFile} (h : ∀ j : RegIdx, inspectPort x j = inspectPort y j) : x = y := by
  apply Vector.ext
  intro n hn
  have hn' : n < 11 := hn
  have hlt : n < 2 ^ 4 := Nat.lt_trans hn' (by decide)
  have hb : (BitVec.ofNat 4 n).toNat = n := by rw [BitVec.toNat_ofNat, Nat.mod_eq_of_lt hlt]
  have hx := h (BitVec.ofNat 4 n)
  simp only [inspectPort, hb, Vector.getElem?_eq_getElem hn, Option.some.injEq] at hx
  exact hx

/-- Every legal slot holds a value. -/
theorem inspectPort_legal (x : RegFile) {i : RegIdx} (h : legalReg i = true) :
    ∃ v, inspectPort x i = some v := by
  rw [legalReg_iff] at h
  have hn : i.toNat < Config.numSlots := Nat.lt_trans h (by decide)
  exact ⟨x[i.toNat], by simp [inspectPort, hn]⟩

/-- The FLAGS slot on the inspection port. -/
theorem inspectPort_flags (s : State) : inspectPort s.regs 10 = some s.flags := rfl

/-! ## Reads -/

/-- Read ports, once for all: what they answer is the slot, and only for a legal index. -/
theorem readPort_ok_iff {x : RegFile} {i : RegIdx} {v : Word} :
    readPort x i = .ok v ↔ legalReg i = true ∧ inspectPort x i = some v := by
  rw [legalReg_iff]
  unfold readPort inspectPort
  split
  · rename_i h
    have h10 : i.toNat < 10 := h
    have hn : i.toNat < Config.numSlots := Nat.lt_trans h (by decide)
    simp [h10, hn]
  · rename_i h
    have h10 : ¬ i.toNat < 10 := h
    simp [h10]

theorem readPort_illegal (x : RegFile) {i : RegIdx} (h : legalReg i = false) :
    readPort x i = .error (.registerPort i) := by
  unfold readPort
  simp_all [legalReg]

/-! ## Commit -/

theorem writeSlot_legal (x : RegFile) {i : RegIdx} (v : Word) (h : legalReg i = true) :
    writeSlot x (some (i, v)) = .ok (setSlot x i v) := by
  rw [legalReg_iff] at h
  have hf : i.toNat < Config.flagsIndex := h
  have hn : i.toNat < Config.numSlots := Nat.lt_trans h (by decide)
  have hs : x.set i.toNat v hn = x.setIfInBounds i.toNat v := by
    apply Vector.ext
    intro n hlt
    simp [Vector.getElem_set, Vector.getElem_setIfInBounds]
  simp only [writeSlot, hf, dite_true, setSlot, hs]

theorem writeSlot_illegal (x : RegFile) {i : RegIdx} (v : Word) (h : legalReg i = false) :
    writeSlot x (some (i, v)) = .error (.registerPort i) := by
  unfold writeSlot
  simp_all [legalReg]

@[simp] theorem commit_none (x : RegFile) : commit x none none = .ok x := rfl

theorem commit_one (x : RegFile) {i : RegIdx} (v : Word) (h : legalReg i = true) :
    commit x (some (i, v)) none = .ok (setSlot x i v) := writeSlot_legal x v h

theorem commit_one_illegal (x : RegFile) {i : RegIdx} (v : Word) (h : legalReg i = false) :
    commit x (some (i, v)) none = .error (.registerPort i) := writeSlot_illegal x v h

theorem commit_two (x : RegFile) {i j : RegIdx} (v w : Word) (hi : legalReg i = true)
    (hj : legalReg j = true) (hne : i ≠ j) :
    commit x (some (i, v)) (some (j, w)) = .ok (setSlot (setSlot x i v) j w) := by
  simp only [commit, if_neg hne, writeSlot_legal _ _ hi, writeSlot_legal _ _ hj]

/-- The write-back of a division. -/
theorem commit_quot_rem (x : RegFile) (q r : Word) :
    commit x (some (Config.quotientReg, q)) (some (Config.remainderReg, r)) =
      .ok (setSlot (setSlot x Config.quotientReg q) Config.remainderReg r) :=
  commit_two x q r (by decide) (by decide) (by decide)

/-- What the register file holds after the write-back of a division. -/
theorem inspectPort_quot_rem (x : RegFile) (q r : Word) (j : RegIdx) :
    inspectPort (setSlot (setSlot x Config.quotientReg q) Config.remainderReg r) j =
      if j = 0 then some q else if j = 1 then some r else inspectPort x j := by
  rw [inspectPort_setSlot _ _ _ _ (by decide), inspectPort_setSlot _ _ _ _ (by decide)]
  by_cases h0 : j = 0
  · subst h0; rfl
  · by_cases h1 : j = 1
    · subst h1; rfl
    · have h0' : ¬ Config.quotientReg = j := fun h => h0 h.symm
      have h1' : ¬ Config.remainderReg = j := fun h => h1 h.symm
      rw [if_neg h1', if_neg h0', if_neg h0, if_neg h1]

end Sys2Proof.Machine
end

