-- ==== Sys2Proof/Laws/Ops.lean ====
section
/-! SUPPORT. One lemma for each shared operation that says what it can do, and the inversion of `exec`. -/

namespace Sys2Proof.Machine

/-- `withReg` on a legal register goes on with the slot's value. -/
theorem withReg_legal {s : State} {i : RegIdx} {a : Word} (h : legalReg i = true)
    (hv : inspectPort s.regs i = some a) (k : Word → Result) : withReg s i k = k a := by
  rw [withReg, readPort_ok_iff.mpr ⟨h, hv⟩]

theorem withReg_illegal (s : State) {i : RegIdx} (h : legalReg i = false) (k : Word → Result) :
    withReg s i k = .refused (.registerPort i) := by
  rw [withReg, readPort_illegal _ h]

/-- `complete` answers a next state exactly when the commit succeeds. -/
theorem complete_next_iff {f : Format} {w0 w1 : WritePort} {s t : State} :
    complete f w0 w1 s = .next t ↔
      ∃ x, commit s.regs w0 w1 = .ok x ∧ t = (s.withRegs x).withPc (s.pc + f.length) := by
  unfold complete
  split
  · rename_i x hx
    constructor
    · intro h; cases h; exact ⟨x, hx, rfl⟩
    · rintro ⟨y, hy, rfl⟩; rw [hx] at hy; cases hy; rfl
  · rename_i r hr
    constructor
    · intro h; cases h
    · rintro ⟨y, hy, -⟩; rw [hr] at hy; cases hy

theorem complete_one {f : Format} {s : State} {i : RegIdx} (v : Word) (h : legalReg i = true) :
    complete f (some (i, v)) none s = .next ((s.withRegs (setSlot s.regs i v)).withPc (s.pc + f.length)) :=
  complete_next_iff.mpr ⟨_, commit_one _ v h, rfl⟩

theorem passImm_legal (imm : Word) {reg : RegIdx} (s : State) (h : legalReg reg = true) :
    passImm imm reg s = .next ((s.withRegs (setSlot s.regs reg imm)).withPc (s.pc + 4)) :=
  complete_one imm h

theorem passReg_legal {src dst : RegIdx} {s : State} {b : Word} (hs : legalReg src = true)
    (hd : legalReg dst = true) (hb : inspectPort s.regs src = some b) :
    passReg src dst s = .next ((s.withRegs (setSlot s.regs dst b)).withPc (s.pc + 3)) := by
  rw [passReg, withReg_legal hs hb]; exact complete_one b hd

theorem resultImm_legal (o : ResOp) (imm : Word) {reg : RegIdx} {s : State} {a : Word}
    (h : legalReg reg = true) (ha : inspectPort s.regs reg = some a) :
    resultImm o imm reg s =
      .next ((s.withRegs (setSlot s.regs reg (aluRes o a imm))).withPc (s.pc + 4)) := by
  rw [resultImm, withReg_legal h ha]; exact complete_one _ h

theorem resultReg_legal (o : ResOp) {src dst : RegIdx} {s : State} {a b : Word}
    (hs : legalReg src = true) (hd : legalReg dst = true)
    (ha : inspectPort s.regs dst = some a) (hb : inspectPort s.regs src = some b) :
    resultReg o src dst s =
      .next ((s.withRegs (setSlot s.regs dst (aluRes o a b))).withPc (s.pc + 3)) := by
  rw [resultReg, withReg_legal hd ha, withReg_legal hs hb]; exact complete_one _ hd

/-- The register file a division leaves. -/
def divided (o : DivOp) (a b : Word) (x : RegFile) : RegFile :=
  if b = 0 then x
  else setSlot (setSlot x Config.quotientReg (aluQuot o a b)) Config.remainderReg (aluRem o a b)

theorem divideInto_eq (o : DivOp) (f : Format) (a b : Word) (s : State) :
    divideInto o f a b s = .next ((s.withRegs (divided o a b s.regs)).withPc (s.pc + f.length)) := by
  unfold divideInto divided
  split
  · exact complete_next_iff.mpr ⟨_, commit_none _, rfl⟩
  · exact complete_next_iff.mpr ⟨_, commit_quot_rem _ _ _, rfl⟩

/-- What each slot holds after a division. -/
theorem inspectPort_divided (o : DivOp) (a b : Word) (x : RegFile) (j : RegIdx) :
    inspectPort (divided o a b x) j =
      if b = 0 then inspectPort x j
      else if j = 0 then some (aluQuot o a b)
      else if j = 1 then some (aluRem o a b) else inspectPort x j := by
  unfold divided
  split
  · rfl
  · rw [inspectPort_quot_rem]

theorem divideImm_legal (o : DivOp) (imm : Word) {reg : RegIdx} {s : State} {a : Word}
    (h : legalReg reg = true) (ha : inspectPort s.regs reg = some a) :
    divideImm o imm reg s = .next ((s.withRegs (divided o a imm s.regs)).withPc (s.pc + 4)) := by
  rw [divideImm, withReg_legal h ha]; exact divideInto_eq ..

theorem divideReg_legal (o : DivOp) {src dst : RegIdx} {s : State} {a b : Word}
    (hs : legalReg src = true) (hd : legalReg dst = true)
    (ha : inspectPort s.regs dst = some a) (hb : inspectPort s.regs src = some b) :
    divideReg o src dst s = .next ((s.withRegs (divided o a b s.regs)).withPc (s.pc + 3)) := by
  rw [divideReg, withReg_legal hd ha, withReg_legal hs hb]; exact divideInto_eq ..

/-! ## Inversion -/

theorem withReg_next {s t : State} {i : RegIdx} {k : Word → Result} (h : withReg s i k = .next t) :
    ∃ a, legalReg i = true ∧ inspectPort s.regs i = some a ∧ k a = .next t := by
  unfold withReg at h
  split at h
  · rename_i a ha
    exact ⟨a, (readPort_ok_iff.mp ha).1, (readPort_ok_iff.mp ha).2, h⟩
  · cases h

theorem withReg_not_fault {s : State} {i : RegIdx} {k : Word → Result} {f : Fault}
    (hk : ∀ a, k a ≠ .fault f) : withReg s i k ≠ .fault f := by
  unfold withReg
  split
  · exact hk _
  · intro h; cases h

theorem complete_not_fault (f : Format) (w0 w1 : WritePort) (s : State) (g : Fault) :
    complete f w0 w1 s ≠ .fault g := by
  unfold complete
  split <;> intro h <;> cases h

/-- `exec` never faults: the buffer is read by the fetch alone. -/
theorem exec_not_fault (i : Instr) (s : State) (g : Fault) : exec i s ≠ .fault g := by
  have hdiv : ∀ o f a b, divideInto o f a b s ≠ .fault g := fun o f a b => by
    rw [divideInto_eq]; intro h; cases h
  cases i with
  | movi => exact complete_not_fault _ _ _ _ _
  | exit => intro h; cases h
  | movr => exact withReg_not_fault fun _ => complete_not_fault _ _ _ _ _
  | addi | subi | muli | imuli => exact withReg_not_fault fun _ => complete_not_fault _ _ _ _ _
  | addr | subr | mulr | imulr =>
      exact withReg_not_fault fun _ => withReg_not_fault fun _ => complete_not_fault _ _ _ _ _
  | divi | idivi => exact withReg_not_fault fun _ => hdiv _ _ _ _
  | divr | idivr => exact withReg_not_fault fun _ => withReg_not_fault fun _ => hdiv _ _ _ _

/-- What an instruction can do to the state, once for all: EXIT halts, and any other instruction replaces the
register file and advances the pc by its length. Nothing else changes. -/
theorem exec_next_cases {i : Instr} {s t : State} (h : exec i s = .next t) :
    (i = .exit ∧ t = s.withRun .halted) ∨
      (i ≠ .exit ∧ ∃ x, t = (s.withRegs x).withPc (s.pc + i.len)) := by
  have hc : ∀ {f w0 w1}, complete f w0 w1 s = .next t →
      ∃ x, t = (s.withRegs x).withPc (s.pc + f.length) := fun h =>
    let ⟨x, _, hx⟩ := complete_next_iff.mp h; ⟨x, hx⟩
  have hd : ∀ {o f a b}, divideInto o f a b s = .next t →
      ∃ x, t = (s.withRegs x).withPc (s.pc + f.length) := fun h => by
    rw [divideInto_eq] at h; cases h; exact ⟨_, rfl⟩
  cases i with
  | exit => cases h; exact .inl ⟨rfl, rfl⟩
  | movi => exact .inr ⟨by simp, hc h⟩
  | movr =>
      obtain ⟨_, _, _, h⟩ := withReg_next h
      exact .inr ⟨by simp, hc h⟩
  | addi | subi | muli | imuli =>
      obtain ⟨_, _, _, h⟩ := withReg_next h
      exact .inr ⟨by simp, hc h⟩
  | addr | subr | mulr | imulr =>
      obtain ⟨_, _, _, h⟩ := withReg_next h
      obtain ⟨_, _, _, h⟩ := withReg_next h
      exact .inr ⟨by simp, hc h⟩
  | divi | idivi =>
      obtain ⟨_, _, _, h⟩ := withReg_next h
      exact .inr ⟨by simp, hd h⟩
  | divr | idivr =>
      obtain ⟨_, _, _, h⟩ := withReg_next h
      obtain ⟨_, _, _, h⟩ := withReg_next h
      exact .inr ⟨by simp, hd h⟩

end Sys2Proof.Machine
end

