-- ==== Sys2Proof/Laws/Fetch.lean ====
section
/-! SUPPORT. What a fetch reads and what a step can do, each said once. -/

namespace Sys2Proof.Machine

/-- A read of several bytes answers exactly the bytes at those offsets. -/
theorem memReads_ok_iff {s : State} {a n : Nat} {bs : List Byte} :
    memReads s a n = .ok bs ↔
      bs.length = n ∧ ∀ k (h : k < bs.length), memRead s (a + k) = .ok bs[k] := by
  induction n generalizing a bs with
  | zero =>
      simp only [memReads]
      constructor
      · intro h; cases h; exact ⟨rfl, fun k h => absurd h (Nat.not_lt_zero k)⟩
      · rintro ⟨h, _⟩; rw [List.length_eq_zero_iff.mp h]
  | succ n ih =>
      simp only [memReads]
      constructor
      · intro h
        split at h
        · cases h
        · rename_i b hb
          split at h
          · cases h
          · rename_i cs hcs
            cases h
            obtain ⟨hl, hc⟩ := ih.mp hcs
            refine ⟨by simp [hl], fun k hk => ?_⟩
            cases k with
            | zero => exact hb
            | succ k => rw [show a + (k + 1) = a + 1 + k by omega]; exact hc k (by simpa using hk)
      · rintro ⟨hl, hc⟩
        match bs, hl, hc with
        | b :: cs, hl, hc =>
            have h0 : memRead s a = .ok b := hc 0 (by simp)
            have h1 : memReads s (a + 1) n = .ok cs := by
              refine ih.mpr ⟨by simpa using hl, fun k hk => ?_⟩
              have := hc (k + 1) (by simpa using hk)
              rwa [show a + (k + 1) = a + 1 + k by omega] at this
            rw [h0]; simp only [h1]

/-- A fetch gives an instruction exactly when the opcode byte is there and recognized, the instruction lies
inside the buffer, and its operand bytes decode. -/
theorem fetch_ok_iff {s : State} {d : Decoded} :
    fetch s = .ok d ↔
      ∃ b, memRead s s.pc = .ok b ∧
        ((∃ e, decodeOpcode b (s.bufLen - s.pc) = .error e ∧ d = .raise e) ∨
          ∃ o bs, decodeOpcode b (s.bufLen - s.pc) = .ok o ∧ memReads s (s.pc + 1) (o.len - 1) = .ok bs ∧
            d = decodeOperands o bs) := by
  unfold fetch
  cases hb : memRead s s.pc with
  | error f => simp
  | ok b =>
      simp only [Except.ok.injEq, exists_eq_left']
      cases ho : decodeOpcode b (s.bufLen - s.pc) with
      | error e => simp [eq_comm]
      | ok o =>
          cases hm : memReads s (s.pc + 1) (o.len - 1) with
          | error f => simp [hm]
          | ok bs => simp [hm, eq_comm]

/-- Two states with the same pc and the same buffer fetch alike. -/
theorem fetch_congr {s t : State} (hp : t.pc = s.pc) (hm : t.mem = s.mem) (hl : t.bufLen = s.bufLen) :
    fetch t = fetch s := by
  have hr : ∀ a, memRead t a = memRead s a := memRead_congr hm hl
  have hrs : ∀ n a, memReads t a n = memReads s a n := by
    intro n
    induction n with
    | zero => intro a; rfl
    | succ n ih => intro a; simp [memReads, hr, ih]
  simp [fetch, hr, hrs, hp, hl]

/-! ## The step -/

theorem step_of_not_running {s : State} (h : s.run ≠ .running) : step s = .next s := by
  unfold step stepAny
  split <;> simp_all

theorem step_of_running {s : State} (h : s.run = .running) : step s = stepRunning s := by
  unfold step stepAny
  rw [h]

/-- `settle` answers a next state exactly when its argument does. -/
theorem settle_next_iff {r : Result} {t : State} : settle r = .next t ↔ ∃ u, r = .next u ∧ t = u.exhaust := by
  cases r with
  | next u => simp [settle, eq_comm]
  | fault f => simp [settle]
  | refused r => simp [settle]

/-- What a step can do in the Running state, once for all (R172): abort with the error decoding raises, or
complete the decoded instruction and check for the end of the buffer. -/
theorem stepRunning_next_iff {s t : State} :
    stepRunning s = .next t ↔
      (∃ e, fetch s = .ok (.raise e) ∧ t = s.abort e) ∨
        ∃ i u, fetch s = .ok (.instr i) ∧ exec i s = .next u ∧ t = u.exhaust := by
  unfold stepRunning
  cases hf : fetch s with
  | error f => simp
  | ok d =>
      cases d with
      | raise e => simp [eq_comm]
      | instr i => simp [settle_next_iff]

/-- A fetched instruction lies inside the buffer. -/
theorem fetch_inside {s : State} {i : Instr} (h : fetch s = .ok (.instr i)) :
    ∃ o bs, memRead s s.pc = .ok o.code ∧ o.len ≤ s.bufLen - s.pc ∧
      memReads s (s.pc + 1) (o.len - 1) = .ok bs ∧ decodeOperands o bs = .instr i := by
  obtain ⟨b, hb, ⟨e, _, he⟩ | ⟨o, bs, ho, hm, hd⟩⟩ := fetch_ok_iff.mp h
  · cases he
  · obtain ⟨rfl, hl⟩ := decodeOpcode_ok_iff.mp ho
    exact ⟨o, bs, hb, hl, hm, hd.symm⟩

end Sys2Proof.Machine
end

