-- ==== Sys2Proof/Laws/PerInstr.lean ====
section
/-! SUPPORT. Laws said of each instruction as syntax, one lemma per constructor of `Instr`. -/

namespace Sys2Proof.Laws

/-- The encoding of an instruction begins with its opcode and is as long as its opcode says (R70, R74, R77). -/
def EncodeShape.Statement (i : Instr) : Prop :=
  (encode i).head? = some i.op.code ∧ (encode i).length = i.len ∧ opOfByte i.op.code = some i.op

theorem EncodeShape.movi (imm : Word) (reg : RegIdx) : EncodeShape.Statement (.movi imm reg) :=
  ⟨rfl, rfl, opOfByte_code _⟩

theorem EncodeShape.movr (src dst : RegIdx) : EncodeShape.Statement (.movr src dst) :=
  ⟨rfl, rfl, opOfByte_code _⟩

theorem EncodeShape.addi (imm : Word) (reg : RegIdx) : EncodeShape.Statement (.addi imm reg) :=
  ⟨rfl, rfl, opOfByte_code _⟩

theorem EncodeShape.addr (src dst : RegIdx) : EncodeShape.Statement (.addr src dst) :=
  ⟨rfl, rfl, opOfByte_code _⟩

theorem EncodeShape.subi (imm : Word) (reg : RegIdx) : EncodeShape.Statement (.subi imm reg) :=
  ⟨rfl, rfl, opOfByte_code _⟩

theorem EncodeShape.subr (src dst : RegIdx) : EncodeShape.Statement (.subr src dst) :=
  ⟨rfl, rfl, opOfByte_code _⟩

theorem EncodeShape.muli (imm : Word) (reg : RegIdx) : EncodeShape.Statement (.muli imm reg) :=
  ⟨rfl, rfl, opOfByte_code _⟩

theorem EncodeShape.mulr (src dst : RegIdx) : EncodeShape.Statement (.mulr src dst) :=
  ⟨rfl, rfl, opOfByte_code _⟩

theorem EncodeShape.imuli (imm : Word) (reg : RegIdx) : EncodeShape.Statement (.imuli imm reg) :=
  ⟨rfl, rfl, opOfByte_code _⟩

theorem EncodeShape.imulr (src dst : RegIdx) : EncodeShape.Statement (.imulr src dst) :=
  ⟨rfl, rfl, opOfByte_code _⟩

theorem EncodeShape.divi (imm : Word) (reg : RegIdx) : EncodeShape.Statement (.divi imm reg) :=
  ⟨rfl, rfl, opOfByte_code _⟩

theorem EncodeShape.divr (src dst : RegIdx) : EncodeShape.Statement (.divr src dst) :=
  ⟨rfl, rfl, opOfByte_code _⟩

theorem EncodeShape.idivi (imm : Word) (reg : RegIdx) : EncodeShape.Statement (.idivi imm reg) :=
  ⟨rfl, rfl, opOfByte_code _⟩

theorem EncodeShape.idivr (src dst : RegIdx) : EncodeShape.Statement (.idivr src dst) :=
  ⟨rfl, rfl, opOfByte_code _⟩

theorem EncodeShape.exit : EncodeShape.Statement .exit := ⟨rfl, rfl, opOfByte_code _⟩

end Sys2Proof.Laws
end

