-- ==== Sys2Proof/Tests/Slice0.lean ====
section
/-! SUPPORT. Tests and witnesses. Expected values are those of spec/95_test_vectors.md (S<n>, V<n>, P<n>) and of the
rule a test names, not the model's own answers. -/

namespace Sys2Proof.Tests

open Sys2Proof.Machine

/-! ## Helpers -/

/-- The next state of a result, if there is one. -/
def nextOf : Result → Option State
  | .next t => some t
  | _ => none

/-- A slot after a result. -/
def slotOf (r : Result) (i : RegIdx) : Option Word := (nextOf r).bind fun t => inspectPort t.regs i

/-- The pc, the run state and the error record after a result. -/
def controlOf (r : Result) : Option (Nat × RunState × Option FatalError) :=
  (nextOf r).map fun t => (t.pc, t.run, t.err)

/-- The reset state with some slots set. -/
def withSlots (l : List (Nat × Word)) : State :=
  State.reset.withRegs (l.foldl (fun x p => x.setIfInBounds p.1 p.2) State.reset.regs)

/-- A Running state at the start of a buffer, with some slots set. -/
def running (l : List (Nat × Word)) (bs : List Byte) : State := (withSlots l).started bs

/-! ## Decoding: words written out from R71 to R73 and R77, every constructor -/

theorem test_decode_movi : decodeBytes [0x14, 0x34, 0x12, 0x00] = some (.instr (.movi 0x1234 0)) := by decide
theorem test_decode_movr : decodeBytes [0x15, 0x03, 0x07] = some (.instr (.movr 3 7)) := by decide
theorem test_decode_addi : decodeBytes [0x1E, 0x01, 0x00, 0x02] = some (.instr (.addi 1 2)) := by decide
theorem test_decode_addr : decodeBytes [0x1F, 0x04, 0x03] = some (.instr (.addr 4 3)) := by decide
theorem test_decode_subi : decodeBytes [0x20, 0x05, 0x00, 0x05] = some (.instr (.subi 5 5)) := by decide
theorem test_decode_subr : decodeBytes [0x21, 0x06, 0x01] = some (.instr (.subr 6 1)) := by decide
theorem test_decode_muli : decodeBytes [0x22, 0x2C, 0x01, 0x02] = some (.instr (.muli 300 2)) := by decide
theorem test_decode_mulr : decodeBytes [0x23, 0x05, 0x04] = some (.instr (.mulr 5 4)) := by decide
theorem test_decode_imuli : decodeBytes [0x24, 0xFB, 0xFF, 0x03] = some (.instr (.imuli 0xFFFB 3)) := by decide
theorem test_decode_imulr : decodeBytes [0x25, 0x08, 0x09] = some (.instr (.imulr 8 9)) := by decide
theorem test_decode_divi : decodeBytes [0x26, 0x02, 0x00, 0x02] = some (.instr (.divi 2 2)) := by decide
theorem test_decode_divr : decodeBytes [0x27, 0x06, 0x05] = some (.instr (.divr 6 5)) := by decide
theorem test_decode_idivi : decodeBytes [0x28, 0xFD, 0xFF, 0x00] = some (.instr (.idivi 0xFFFD 0)) := by decide
theorem test_decode_idivr : decodeBytes [0x29, 0x03, 0x02] = some (.instr (.idivr 3 2)) := by decide
theorem test_decode_exit : decodeBytes [0xFF, 0x63] = some (.instr .exit) := by decide

/-- V2, V3: SP and BP are legal operands. -/
theorem test_decode_sp_bp : decodeBytes [0x14, 0xFF, 0x7F, 0x09] = some (.instr (.movi 0x7FFF 9)) ∧
    decodeBytes [0x14, 0x00, 0x80, 0x08] = some (.instr (.movi 0x8000 8)) := by decide

/-- V4, V6: the whole register byte is checked. -/
theorem test_decode_illegal_sole :
    decodeBytes [0x14, 0, 0, 0x0A] = some (.raise (.illegalRegister 0x14 .sole 10)) ∧
    decodeBytes [0x14, 0, 0, 0x12] = some (.raise (.illegalRegister 0x14 .sole 18)) := by decide

/-- V7, V8: the source is named first. -/
theorem test_decode_illegal_pair :
    decodeBytes [0x1F, 0x0A, 0x0B] = some (.raise (.illegalRegister 0x1F .source 10)) ∧
    decodeBytes [0x1F, 0x03, 0x0C] = some (.raise (.illegalRegister 0x1F .destination 12)) := by decide

/-- V10, V11, V12: truncation comes before the registers, and counts from the opcode byte. -/
theorem test_decode_truncated :
    decodeBytes [0x1F, 0x0A] = some (.raise (.truncated 31 3 2)) ∧
    decodeBytes [0x14, 0, 0] = some (.raise (.truncated 20 4 3)) ∧
    decodeBytes [0x14] = some (.raise (.truncated 20 4 1)) := by decide

/-- V15, V17 to V20: the neighbours of the opcodes are unrecognized. -/
theorem test_decode_unrecognized : ∀ b ∈ ([0x2A, 0x13, 0x16, 0x1D, 0xFE] : List Byte),
    decodeBytes [b] = some (.raise (.unrecognizedOpcode b)) := by decide

/-- R71, R72: encodings written out by hand. -/
theorem test_encode : encode (.movi 0x1234 0) = [0x14, 0x34, 0x12, 0x00] ∧ encode (.addr 4 3) = [0x1F, 0x04, 0x03] ∧
    encode .exit = [0xFF] := by decide

/-! ## Well-formedness: an ill-formed term for each check -/

theorem test_wf_refuses_illegal_sole : ∀ i ∈ [Instr.movi 0 10, .addi 0 10, .subi 0 11, .muli 0 12, .imuli 0 13,
    .divi 0 14, .idivi 0 15], i.wf = false := by decide
theorem test_wf_refuses_illegal_source : ∀ i ∈ [Instr.movr 10 9, .addr 10 0, .subr 11 1, .mulr 12 2, .imulr 13 3,
    .divr 14 4, .idivr 15 5], i.wf = false := by decide
theorem test_wf_refuses_illegal_destination : ∀ i ∈ [Instr.movr 9 10, .addr 0 10, .subr 1 11, .mulr 2 12,
    .imulr 3 13, .divr 4 14, .idivr 5 15], i.wf = false := by decide
theorem test_wf_accepts_bp : (Instr.movr 9 9).wf = true ∧ Instr.exit.wf = true := by decide

/-! ## Meanings -/

/-- V30: MOVI. -/
theorem test_movi : slotOf (exec (.movi 0xFFFF 0) (withSlots [])) 0 = some 0xFFFF := by decide
/-- V32: MOVR from SP. -/
theorem test_movr : slotOf (exec (.movr 8 1) (withSlots [(8, 0xBEEF)])) 1 = some 0xBEEF := by decide
/-- V34: MOVR does not swap or write its source. -/
theorem test_movr_direction : slotOf (exec (.movr 3 7) (withSlots [(3, 1), (7, 2)])) 7 = some 1 ∧
    slotOf (exec (.movr 3 7) (withSlots [(3, 1), (7, 2)])) 3 = some 1 := by decide
/-- V40, V41: ADDI wraps and detects no signed overflow. -/
theorem test_addi : slotOf (exec (.addi 1 2) (withSlots [(2, 0xFFFF)])) 2 = some 0 ∧
    slotOf (exec (.addi 1 2) (withSlots [(2, 0x7FFF)])) 2 = some 0x8000 := by decide
/-- V43, V44: ADDR, also on one register. -/
theorem test_addr : slotOf (exec (.addr 4 3) (withSlots [(4, 0x8000), (3, 0x8000)])) 3 = some 0 ∧
    slotOf (exec (.addr 6 6) (withSlots [(6, 0x4000)])) 6 = some 0x8000 := by decide
/-- R124 example, V45: SUBI. -/
theorem test_subi : slotOf (exec (.subi 5 5) (withSlots [(5, 3)])) 5 = some 0xFFFE ∧
    slotOf (exec (.subi 1 2) (withSlots [])) 2 = some 0xFFFF := by decide
/-- V47: SUBR is destination minus source. -/
theorem test_subr : slotOf (exec (.subr 4 3) (withSlots [(4, 5), (3, 3)])) 3 = some 0xFFFE := by decide
/-- V49, V50: MULI. -/
theorem test_muli : slotOf (exec (.muli 300 2) (withSlots [(2, 300)])) 2 = some 0x5F90 ∧
    slotOf (exec (.muli 0xFFFF 2) (withSlots [(2, 0xFFFF)])) 2 = some 1 := by decide
/-- V53: MULR on one register. -/
theorem test_mulr : slotOf (exec (.mulr 5 5) (withSlots [(5, 0x00FF)])) 5 = some 0xFE01 := by decide
/-- V54: IMULI. -/
theorem test_imuli : slotOf (exec (.imuli 300 2) (withSlots [(2, 0xFED4)])) 2 = some 0xA070 := by decide
/-- V55, V56: IMULR. -/
theorem test_imulr : slotOf (exec (.imulr 4 3) (withSlots [(4, 0xFFFD), (3, 0xFFFB)])) 3 = some 0x000F ∧
    slotOf (exec (.imulr 4 3) (withSlots [(4, 0xFFFF), (3, 0x8000)])) 3 = some 0x8000 := by decide
/-- V64: DIVI reads its dividend GP0 before writing it. -/
theorem test_divi : slotOf (exec (.divi 7 0) (withSlots [(0, 100)])) 0 = some 14 ∧
    slotOf (exec (.divi 7 0) (withSlots [(0, 100)])) 1 = some 2 := by decide
/-- V61: DIVI by zero. -/
theorem test_divi_zero :
    ((nextOf (exec (.divi 0 2) (withSlots [(0, 0xAAAA), (1, 0xBBBB), (2, 7)]))).map State.regs)
      = some (withSlots [(0, 0xAAAA), (1, 0xBBBB), (2, 7)]).regs := by decide
/-- V67: DIVR r1, r0 reads both before it writes either. -/
theorem test_divr : slotOf (exec (.divr 1 0) (withSlots [(0, 17), (1, 5)])) 0 = some 3 ∧
    slotOf (exec (.divr 1 0) (withSlots [(0, 17), (1, 5)])) 1 = some 2 := by decide
/-- V69, V70: IDIVI rounds toward zero; the remainder has the sign of the dividend. -/
theorem test_idivi : slotOf (exec (.idivi 2 3) (withSlots [(3, 0xFFF9)])) 0 = some 0xFFFD ∧
    slotOf (exec (.idivi 2 3) (withSlots [(3, 0xFFF9)])) 1 = some 0xFFFF ∧
    slotOf (exec (.idivi 0xFFFE 3) (withSlots [(3, 7)])) 1 = some 1 := by decide
/-- V73: IDIVR, -32768 / -1. -/
theorem test_idivr : slotOf (exec (.idivr 4 3) (withSlots [(3, 0x8000), (4, 0xFFFF)])) 0 = some 0x8000 ∧
    slotOf (exec (.idivr 4 3) (withSlots [(3, 0x8000), (4, 0xFFFF)])) 1 = some 0 := by decide

/-! ## Steps and host moves -/

/-- S6, first step: MOVI loads 5 into r2 and the run goes on at offset 4. -/
theorem test_step_movi : controlOf (step (running [] [0x14, 0x05, 0x00, 0x02, 0xFF])) = some (4, .running, none) ∧
    slotOf (step (running [] [0x14, 0x05, 0x00, 0x02, 0xFF])) 2 = some 5 := by decide
/-- S7: DIVI by zero at the end of the buffer: Halted by exhaustion at pc 4, no abort. -/
theorem test_step_exhaustion : controlOf (step (running [(2, 7)] [0x26, 0x00, 0x00, 0x02])) = some (4, .halted, none) := by
  decide
/-- V22: EXIT halts at pc 0. -/
theorem test_step_exit : controlOf (step (running [] [0xFF, 0x63])) = some (0, .halted, none) := by decide
/-- S8: an unrecognized opcode aborts. -/
theorem test_step_unrecognized :
    controlOf (step (running [] [0x63])) = some (0, .aborted, some (.unrecognizedOpcode 99)) := by decide
/-- S9: the truncated ADDI aborts, and its operand byte need not even be there. -/
theorem test_step_truncated :
    controlOf (step (running [] [0x1E, 0x01])) = some (0, .aborted, some (.truncated 30 4 2)) ∧
    controlOf (step ((running [] []).withBuffer [(0, 0x1E)] 2 |>.withRun .running))
      = some (0, .aborted, some (.truncated 30 4 2)) := by decide
/-- P3, last step: MOVR to byte 10 aborts with the destination role. -/
theorem test_step_illegal_register :
    controlOf (step (running [] [0x15, 0x02, 0x0A, 0xFF])) = some (0, .aborted, some (.illegalRegister 0x15 .destination 10)) := by
  decide
/-- V82: the start state and the end of a one-instruction run. -/
theorem test_step_placed_word :
    controlOf (step (State.reset.withFetchWord 24 0x020115)) = some (3, .running, none) ∧
    slotOf (step (State.reset.withFetchWord 32 0x02000514)) 2 = some 5 := by decide
/-- V80, V86: a start on the empty buffer, and construction, are Halted at pc 0. -/
theorem test_start_empty : controlOf (hostStart [] (withSlots [])) = some (0, .halted, none) ∧
    State.reset.status = ⟨1, 0, 0, 0, 0, 0, 0, 0⟩ := by decide
/-- V84: a new start after an abort clears the error and keeps the registers. -/
theorem test_start_after_abort :
    controlOf (hostStart [0xFF] (((running [(0, 1)] [0x14]).abort (.truncated 20 4 1)))) = some (0, .running, none) ∧
    slotOf (hostStart [0xFF] ((running [(0, 1)] [0x14]).abort (.truncated 20 4 1))) 0 = some 1 := by decide
/-- P3, V4: the status outputs of an illegal register. -/
theorem test_status : (State.reset.abort (.illegalRegister 0x15 .destination 10)).status =
    ⟨2, 0, 3, 0x15, 0, 0, 1, 10⟩ := by decide
/-- R84: the outputs for `1F 04 03` with three bytes left. -/
theorem test_decoder_block :
    (decoderBlock 0x1F 0x04 0x03 0xFF 3).map (fun p => (p.decOk, p.len, p.aluOp)) = some (true, some 3, some 1) ∧
    (decoderBlock 0x1F 0x04 0x03 0xFF 3).map (fun p => (p.raSel, p.rbSel, p.wbIdx)) = some (some 3, some 4, some 3) := by
  decide
/-- R121: the ALU codes and a division by zero. -/
theorem test_alu_block : AluOp.code (.division .divs) = 6 ∧
    (aluBlock (.division .divs) 7 0) = { res := none, quot := none, rem := none, bz := true } := by decide

/-! ## The assembler spelling (R86) -/

theorem test_asm_movi : asmOf (.movi 5 2) = some ("MOVI 5, r2".toList) ∧ readAsm "MOVI 5, r2".toList = some (.movi 5 2) := by
  decide
theorem test_asm_negative : readAsm "IDIVI -3, r0".toList = some (.idivi 0xFFFD 0) ∧
    readAsm "MOVI 0xFFFD, sp".toList = some (.movi 0xFFFD 8) := by decide
theorem test_asm_refuses : readAsm "MOVI 65536, r2".toList = none ∧ readAsm "MOVR r1, r10".toList = none ∧
    readAsm "MOVI -32769, r2".toList = none := by decide

/-! ## Witnesses: states and operands that meet the hypotheses of the statements -/

/-- A state with every slot in use and no buffer. -/
def demo : State := withSlots [(0, 17), (1, 5), (2, 7), (3, 0xFFF9), (4, 2), (7, 0), (8, 0x8000), (9, 0xFFFF)]

/-- A Running state at a MOVI, with an EXIT after it. -/
def demoRun : State := running [(2, 7)] [0x14, 0x05, 0x00, 0x02, 0xFF]

/-- A state whose memory is a laid-out buffer presents it (R228). -/
theorem presented_layout (s : State) (bs : List Byte) (hm : s.mem = Memory.layout 0 bs) (hl : s.bufLen = bs.length) :
    s.Presented := by
  intro a
  simp [hm, hl, Memory.read_layout]

theorem witness_demoRun_inv : demoRun.Inv where
  canonical := Memory.layout_wf _ _
  presented := presented_layout _ _ rfl rfl
  pcInside := by decide
  runningInside := by decide
  errAborted := by decide
  errHere := fun _ h => by cases h
  haltedWhy := fun h => by cases h
  flagsZero := by decide

/-- Halted at an EXIT that is not the last byte. -/
def demoExited : State := (running [] [0xFF, 0x63]).withRun .halted

theorem witness_exited_inv : demoExited.Inv where
  canonical := Memory.layout_wf _ _
  presented := presented_layout _ _ rfl rfl
  pcInside := by decide
  runningInside := by decide
  errAborted := by decide
  errHere := fun _ h => by cases h
  haltedWhy := fun _ => .inr rfl
  flagsZero := by decide

/-- Halted at the end of a buffer. -/
def demoExhausted : State := ((running [] [0x15, 0x01, 0x02]).withPc 3).withRun .halted

theorem witness_exhausted_inv : demoExhausted.Inv where
  canonical := Memory.layout_wf _ _
  presented := presented_layout _ _ rfl rfl
  pcInside := by decide
  runningInside := by decide
  errAborted := by decide
  errHere := fun _ h => by cases h
  haltedWhy := fun _ => .inl rfl
  flagsZero := by decide

/-- Aborted at a truncated MOVI. -/
def demoAborted : State := (running [(0, 1)] [0x14]).abort (.truncated 20 4 1)

theorem witness_aborted_inv : demoAborted.Inv where
  canonical := Memory.layout_wf _ _
  presented := presented_layout _ _ rfl rfl
  pcInside := by decide
  runningInside := by decide
  errAborted := by decide
  errHere := fun _ h => by cases h; rfl
  haltedWhy := fun h => by cases h
  flagsZero := by decide

theorem witness_DecodeOfEncodeIsTheInstruction : (Instr.movi 0xFFFF 9).wf = true ∧ (Instr.movr 9 0).wf = true ∧
    Instr.exit.wf = true := by decide
theorem witness_DecodedInstructionIsWellFormedAndEncodesBack :
    decode 0x14 [0xFF, 0xFF, 9] = .instr (.movi 0xFFFF 9) ∧ decode 0x15 [9, 0, 1] = .instr (.movr 9 0) := by decide
theorem witness_ImmediatesAreLittleEndian : decode 0x28 [0x34, 0x12, 9] = .instr (.idivi 0x1234 9) ∧
    (Instr.idivi 0x1234 9).op.format = .immediate := by decide
theorem witness_RaisedErrorsHaveTheRecordedShape :
    fetch (running [] [0x14]) = .ok (.raise (.truncated 20 4 1)) ∧
    fetch (running [] [42]) = .ok (.raise (.unrecognizedOpcode 42)) ∧
    fetch (running [] [0x15, 9, 10]) = .ok (.raise (.illegalRegister 0x15 .destination 10)) := ⟨rfl, rfl, rfl⟩
theorem witness_DecoderBlockIgnoresBytesBeyondRem : 1 ≤ (3 : BitVec 3).toNat ∧ (3 : BitVec 3).toNat ≤ 4 ∧
    ¬ 4 ≤ (3 : BitVec 3).toNat ∧ 1 ≤ (4 : BitVec 3).toNat ∧ (4 : BitVec 3).toNat ≤ 4 := by decide
theorem witness_AssemblerSpellingReadsBack : (Instr.movi 65535 9).wf = true := by decide

/-- The clauses of `ImmFormOf` at their boundaries: register byte 9 and 10, two operand bytes of three. -/
theorem witness_ImmFormOf : (9 : Byte).toNat ≤ 9 ∧ 10 ≤ (10 : Byte).toNat ∧ ([0, 0] : List Byte).length < 3 := by decide
/-- The clauses of `RegFormOf` at their boundaries. -/
theorem witness_RegFormOf : (9 : Byte).toNat ≤ 9 ∧ 10 ≤ (10 : Byte).toNat ∧ ([0] : List Byte).length < 2 := by decide
/-- A legal index at its boundary, for MOVI and every other statement on one register. -/
theorem witness_one_register : (9 : RegIdx).toNat ≤ 9 ∧ inspectPort demo.regs 9 = some 0xFFFF := by decide
/-- Two legal indices, different and equal, for every statement on two registers. -/
theorem witness_two_registers : (9 : RegIdx).toNat ≤ 9 ∧ (0 : RegIdx).toNat ≤ 9 ∧
    inspectPort demo.regs 9 = some 0xFFFF ∧ inspectPort demo.regs 0 = some 17 ∧ (9 : RegIdx) ≠ 0 := by decide
/-- The two clauses of the divisions by an immediate: divisor 0 and not 0. -/
theorem witness_division_immediate : (9 : RegIdx).toNat ≤ 9 ∧ inspectPort demo.regs 9 = some 0xFFFF ∧
    (0 : Word) = 0 ∧ (0xFFFF : Word) ≠ 0 := by decide
/-- The two clauses of the divisions by a register: divisor 0 (r7) and not 0 (r1), the dividend in r0. -/
theorem witness_division_register : (7 : RegIdx).toNat ≤ 9 ∧ (1 : RegIdx).toNat ≤ 9 ∧ (0 : RegIdx).toNat ≤ 9 ∧
    inspectPort demo.regs 0 = some 17 ∧ inspectPort demo.regs 7 = some 0 ∧ inspectPort demo.regs 1 = some 5 ∧
    (5 : Word) ≠ 0 := by decide
theorem witness_MoviLoadsTheImmediate : (9 : RegIdx).toNat ≤ 9 ∧ inspectPort demo.regs 9 = some 0xFFFF :=
  witness_one_register
theorem witness_AddiAddsTheImmediate : (9 : RegIdx).toNat ≤ 9 ∧ inspectPort demo.regs 9 = some 0xFFFF :=
  witness_one_register
theorem witness_SubiSubtractsTheImmediate : (9 : RegIdx).toNat ≤ 9 ∧ inspectPort demo.regs 9 = some 0xFFFF :=
  witness_one_register
theorem witness_MuliMultipliesByTheImmediate : (9 : RegIdx).toNat ≤ 9 ∧ inspectPort demo.regs 9 = some 0xFFFF :=
  witness_one_register
theorem witness_ImuliMultipliesSignedByTheImmediate : (9 : RegIdx).toNat ≤ 9 ∧ inspectPort demo.regs 9 = some 0xFFFF :=
  witness_one_register
theorem witness_MovrCopiesTheSource : (9 : RegIdx).toNat ≤ 9 ∧ (0 : RegIdx).toNat ≤ 9 ∧
    inspectPort demo.regs 9 = some 0xFFFF ∧ inspectPort demo.regs 0 = some 17 ∧ (9 : RegIdx) ≠ 0 :=
  witness_two_registers
theorem witness_AddrAddsTheSource : (9 : RegIdx).toNat ≤ 9 ∧ (0 : RegIdx).toNat ≤ 9 ∧
    inspectPort demo.regs 9 = some 0xFFFF ∧ inspectPort demo.regs 0 = some 17 ∧ (9 : RegIdx) ≠ 0 :=
  witness_two_registers
theorem witness_SubrSubtractsTheSource : (9 : RegIdx).toNat ≤ 9 ∧ (0 : RegIdx).toNat ≤ 9 ∧
    inspectPort demo.regs 9 = some 0xFFFF ∧ inspectPort demo.regs 0 = some 17 ∧ (9 : RegIdx) ≠ 0 :=
  witness_two_registers
theorem witness_MulrMultipliesByTheSource : (9 : RegIdx).toNat ≤ 9 ∧ (0 : RegIdx).toNat ≤ 9 ∧
    inspectPort demo.regs 9 = some 0xFFFF ∧ inspectPort demo.regs 0 = some 17 ∧ (9 : RegIdx) ≠ 0 :=
  witness_two_registers
theorem witness_ImulrMultipliesSignedByTheSource : (9 : RegIdx).toNat ≤ 9 ∧ (0 : RegIdx).toNat ≤ 9 ∧
    inspectPort demo.regs 9 = some 0xFFFF ∧ inspectPort demo.regs 0 = some 17 ∧ (9 : RegIdx) ≠ 0 :=
  witness_two_registers
theorem witness_SubtractionUndoesAddition : (9 : RegIdx).toNat ≤ 9 ∧ (0 : RegIdx).toNat ≤ 9 ∧
    inspectPort demo.regs 9 = some 0xFFFF ∧ inspectPort demo.regs 0 = some 17 ∧ (9 : RegIdx) ≠ 0 :=
  witness_two_registers
theorem witness_DiviWritesQuotientAndRemainder : (9 : RegIdx).toNat ≤ 9 ∧ inspectPort demo.regs 9 = some 0xFFFF ∧
    (0 : Word) = 0 ∧ (0xFFFF : Word) ≠ 0 :=
  witness_division_immediate
theorem witness_IdiviWritesSignedQuotientAndRemainder : (9 : RegIdx).toNat ≤ 9 ∧ inspectPort demo.regs 9 = some 0xFFFF ∧
    (0 : Word) = 0 ∧ (0xFFFF : Word) ≠ 0 :=
  witness_division_immediate
theorem witness_DivrWritesQuotientAndRemainder : (7 : RegIdx).toNat ≤ 9 ∧ (1 : RegIdx).toNat ≤ 9 ∧ (0 : RegIdx).toNat ≤ 9 ∧
    inspectPort demo.regs 0 = some 17 ∧ inspectPort demo.regs 7 = some 0 ∧ inspectPort demo.regs 1 = some 5 ∧
    (5 : Word) ≠ 0 :=
  witness_division_register
theorem witness_IdivrWritesSignedQuotientAndRemainder : (7 : RegIdx).toNat ≤ 9 ∧ (1 : RegIdx).toNat ≤ 9 ∧ (0 : RegIdx).toNat ≤ 9 ∧
    inspectPort demo.regs 0 = some 17 ∧ inspectPort demo.regs 7 = some 0 ∧ inspectPort demo.regs 1 = some 5 ∧
    (5 : Word) ≠ 0 :=
  witness_division_register
/-- Both forms: the immediate 5 on r9, and r0 by r1. -/
theorem witness_UnsignedDivisionIdentity : (9 : RegIdx).toNat ≤ 9 ∧ inspectPort demo.regs 9 = some 0xFFFF ∧
    (1 : RegIdx).toNat ≤ 9 ∧ inspectPort demo.regs 0 = some 17 ∧ inspectPort demo.regs 1 = some 5 ∧ (5 : Word) ≠ 0 := by
  decide
/-- Both cases of the signed identity: -32768 / -1 (r8 by r9) and another (r3 by r4). -/
theorem witness_SignedDivisionIdentity : inspectPort demo.regs 8 = some 0x8000 ∧ inspectPort demo.regs 9 = some 0xFFFF ∧
    inspectPort demo.regs 3 = some 0xFFF9 ∧ inspectPort demo.regs 4 = some 2 ∧
    (9 : RegIdx).toNat ≤ 9 ∧ (2 : Word) ≠ 0 ∧ (0xFFFF : Word) ≠ 0 ∧
    ¬ ((0xFFF9 : Word) = 0x8000 ∧ (2 : Word) = 0xFFFF) := by decide
/-- A row of the table of R154 with its operand values in two registers. -/
theorem witness_SignedDivisionTable : inspectPort demo.regs 3 = some 0xFFF9 ∧ inspectPort demo.regs 4 = some 0x0002 ∧
    (3 : RegIdx).toNat ≤ 9 ∧ (4 : RegIdx).toNat ≤ 9 := by decide
theorem witness_DivisionByZeroIsANoOp : (7 : RegIdx).toNat ≤ 9 ∧ (9 : RegIdx).toNat ≤ 9 ∧
    inspectPort demo.regs 7 = some 0 := by decide
theorem witness_OnlyDivisionsWriteUnnamedRegisters : ∃ t, exec (.divr 1 0) demo = .next t := ⟨_, rfl⟩
theorem witness_WellFormedInstructionsComplete : (Instr.idivr 9 9).wf = true := by decide
theorem witness_IllFormedInstructionsAreRefused : (Instr.movr 9 10).wf = false ∧ (Instr.movi 0 15).wf = false := by decide
theorem witness_FlagsIsNeitherReadNorWritten : ∃ t, step demoRun = .next t := ⟨_, rfl⟩
theorem witness_BufferIsNeverWritten : ∃ t, step demoRun = .next t := ⟨_, rfl⟩
theorem witness_StepRunsTheDecodedInstruction : demoRun.run = .running ∧ (Instr.movi 5 2).wf = true ∧
    (∀ k (h : k < (encode (.movi 5 2)).length), memRead demoRun (demoRun.pc + k) = .ok (encode (.movi 5 2))[k]) ∧
    ∃ t, exec (.movi 5 2) demoRun = .next t := by
  refine ⟨rfl, rfl, fun k h => ?_, ⟨_, rfl⟩⟩
  have h4 : k < 4 := h
  match k, h4 with
  | 0, _ => rfl
  | 1, _ => rfl
  | 2, _ => rfl
  | 3, _ => rfl
theorem witness_ExitHaltsWithoutAdvancing : (running [] [0xFF]).run = .running ∧
    memRead (running [] [0xFF]) 0 = .ok 0xFF := ⟨rfl, rfl⟩
theorem witness_UnrecognizedOpcodeAborts :
    (running [] [42]).run = .running ∧ memRead (running [] [42]) 0 = .ok 42 ∧
      (42 ≤ (42 : Byte).toNat ∧ (42 : Byte).toNat ≤ 254) ∧
    (running [] [41]).run = .running ∧ memRead (running [] [41]) 0 = .ok 41 ∧
      (30 ≤ (41 : Byte).toNat ∧ (41 : Byte).toNat ≤ 41) := ⟨rfl, rfl, by decide, rfl, rfl, by decide⟩
/-- The clauses of the truncation statement: format I with 3 bytes, format R with 2, EXIT, and a raised error. -/
theorem witness_TruncatedInstructionAborts :
    memRead (running [] [0x14, 0, 0]) 0 = .ok 20 ∧ (running [] [0x14, 0, 0]).bufLen - 0 < 4 ∧
    memRead (running [] [0x15, 0]) 0 = .ok 21 ∧ (running [] [0x15, 0]).bufLen - 0 < 3 ∧
    memRead (running [] [0xFF]) 0 = .ok 255 ∧
    fetch (running [] [0x14, 0, 0]) = .ok (.raise (.truncated 20 4 3)) := by
  exact ⟨rfl, by decide, rfl, by decide, rfl, rfl⟩
/-- The clauses of the illegal-register statement at byte 10, the source legal at 9 in the last. -/
theorem witness_IllegalRegisterAborts :
    memRead (running [] [0x14, 0, 0, 10]) 3 = .ok 10 ∧ 10 ≤ (10 : Byte).toNat ∧
    memRead (running [] [0x15, 10, 0]) 1 = .ok 10 ∧
    memRead (running [] [0x15, 9, 10]) 1 = .ok 9 ∧ memRead (running [] [0x15, 9, 10]) 2 = .ok 10 ∧
    (9 : Byte).toNat ≤ 9 := ⟨rfl, by decide, rfl, rfl, rfl, by decide⟩
theorem witness_AbortIsPrecise : (running [] [99]).run = .running ∧
    fetch (running [] [99]) = .ok (.raise (.unrecognizedOpcode 99)) := ⟨rfl, rfl⟩
theorem witness_TerminalStatesStay : demoExited.run ≠ .running ∧ demoAborted.run ≠ .running := by decide
/-- The four ways of `RunningTransitionsAreComplete`: aborted, EXIT, going on, exhausted. -/
theorem witness_RunningTransitionsAreComplete :
    (∃ t, step (running [] [99]) = .next t) ∧ (∃ t, step (running [] [0xFF]) = .next t) ∧
    (∃ t, step demoRun = .next t) ∧ (∃ t, step (running [] [0x15, 1, 2]) = .next t) :=
  ⟨⟨_, rfl⟩, ⟨_, rfl⟩, ⟨_, rfl⟩, ⟨_, rfl⟩⟩
/-- Two buffers that agree on one instruction and differ, or are absent, after it. -/
theorem witness_FetchReadsOnlyTheInstruction :
    fetch (running [] [0x15, 1, 2, 7]) = .ok (.instr (.movr 1 2)) ∧
    (∀ k, k < (Instr.movr 1 2).len →
      memRead ((running [] [0x15, 1, 2]).withBuffer [(0, 0x15), (1, 1), (2, 2)] 4) (0 + k)
        = memRead (running [] [0x15, 1, 2, 7]) (0 + k)) ∧
    fetch (running [] [99, 1]) = .ok (.raise (.unrecognizedOpcode 99)) ∧
    fetch (running [] [0x14, 1]) = .ok (.raise (.truncated 20 4 2)) ∧
    fetch (running [] [0x15, 1, 10, 7]) = .ok (.raise (.illegalRegister 21 .destination 10)) := by
  refine ⟨rfl, fun k h => ?_, rfl, rfl, rfl⟩
  have h3 : k < 3 := h
  match k, h3 with
  | 0, _ => rfl
  | 1, _ => rfl
  | 2, _ => rfl
theorem witness_ControlIsIndependentOfRegisters :
    demoRun.SameButRegs (running [(2, 9), (9, 1)] [0x14, 0x05, 0x00, 0x02, 0xFF]) := ⟨rfl, rfl, rfl, rfl, rfl⟩
theorem witness_BlocksRefineTheStep : demoRun.Inv ∧ demoRun.run = .running := ⟨witness_demoRun_inv, rfl⟩
theorem witness_AllowedStatesAlwaysStep : demoRun.Inv := witness_demoRun_inv
theorem witness_EveryRunEnds : demoRun.Inv ∧ demoRun.run = .running := ⟨witness_demoRun_inv, rfl⟩
theorem witness_HostDutiesAreRefusedWhileRunning : demoRun.run = .running := rfl
theorem witness_StepKeepsTheInvariant : demoRun.Inv ∧ ∃ t, step demoRun = .next t := ⟨witness_demoRun_inv, ⟨_, rfl⟩⟩
/-- The three kinds of an ended run. -/
theorem witness_EndedRunsAreOfThreeKinds : (demoExited.Inv ∧ demoExited.run ≠ .running) ∧
    (demoExhausted.Inv ∧ demoExhausted.run ≠ .running) ∧ (demoAborted.Inv ∧ demoAborted.run ≠ .running) :=
  ⟨⟨witness_exited_inv, by decide⟩, ⟨witness_exhausted_inv, by decide⟩, ⟨witness_aborted_inv, by decide⟩⟩
theorem witness_ConstructionClearsEverything : (10 : RegIdx).toNat ≤ 10 ∧ demoAborted.run ≠ .running := by decide
/-- A start from a terminal state, on the empty buffer and on another. -/
theorem witness_StartBeginsARun : demoAborted.run ≠ .running ∧ 0 < ([0xFF] : List Byte).length ∧
    ([] : List Byte) = [] ∧ ([0xFF] : List Byte) ≠ [] := by decide
theorem witness_HostMovesKeepTheInvariant : demoAborted.Inv ∧ (∃ t, hostMove (.start [0xFF]) demoAborted = .next t) ∧
    ∃ t, hostMove .por demoAborted = .next t := ⟨witness_aborted_inv, ⟨_, rfl⟩, ⟨_, rfl⟩⟩
theorem witness_StatusOutputsDetermineTheError : demoAborted.Inv ∧ demoAborted.status = demoAborted.status :=
  ⟨witness_aborted_inv, rfl⟩
theorem witness_StatusOutputsEncodeTheRecord : demoRun.err = none ∧
    (State.reset.abort (.unrecognizedOpcode 99)).err = some (.unrecognizedOpcode 99) ∧
    demoAborted.err = some (.truncated 20 (4 : BitVec 3).toNat (1 : BitVec 3).toNat) ∧
    (State.reset.abort (.illegalRegister 0x15 .destination 10)).err = some (.illegalRegister 0x15 .destination 10) := by
  decide
/-- A terminal state, and slots at both ends of the two ranges. -/
theorem witness_HostReadsAnswerBetweenRuns : demoAborted.run ≠ .running ∧ (10 : RegIdx).toNat ≤ 10 ∧
    11 ≤ (11 : RegIdx).toNat := by decide
theorem witness_NoHostMoveStopsARun : demoRun.run = .running ∧ demoExited.run ≠ .running := by decide

end Sys2Proof.Tests
end

section
/-! SUPPORT. The port-level design of Sys2Proof/Machine/Datapath.lean against the step: what a well-formed instruction
does in terms of one ALU operation, the execution of a descriptor on the ports, the bytes the decoder block sees, and
the error record made from its outputs. -/

namespace Sys2Proof.Machine

/-! ## A well-formed instruction is EXIT or one ALU operation -/

/-- The register file an ALU operation on `a` and `b` leaves, when the decoder names `wb` for the result (R85). -/
def aluWritten (op : AluOp) (a b : Word) (wb : RegIdx) (x : RegFile) : RegFile :=
  match op with
  | .result o => setSlot x wb (aluRes o a b)
  | .division o => divided o a b x

/-- The state after an ALU operation of an instruction of format `f`. -/
def State.afterAlu (s : State) (f : Format) (op : AluOp) (a b : Word) (wb : RegIdx) : State :=
  (s.withRegs (aluWritten op a b wb s.regs)).withPc (s.pc + f.length)

/-- The decoder's outputs for a descriptor of format I (R84). -/
def immediatePorts (op : AluOp) (imm : Word) (reg : RegIdx) : DecoderPorts :=
  { decOk := true, decErr := none, errRole := none, errValue := none, len := some 4, fmt := some .immediate
    aluOp := some op.code, isExit := false, imm := some imm, raSel := some reg, rbSel := none, wbIdx := some reg }

/-- The decoder's outputs for a descriptor of format R (R84). -/
def registerPorts (op : AluOp) (src dst : RegIdx) : DecoderPorts :=
  { decOk := true, decErr := none, errRole := none, errValue := none, len := some 3, fmt := some .register
    aluOp := some op.code, isExit := false, imm := none, raSel := some dst, rbSel := some src, wbIdx := some dst }

/-- R85: on the ports and in `exec` alike, a well-formed instruction but EXIT is one ALU operation on legal registers,
with the immediate or the source as operand b. -/
theorem exec_wf_cases {i : Instr} (s : State) (hw : i.wf = true) :
    i = .exit ∨
      (∃ op imm reg a, exec i s = .next (s.afterAlu .immediate op a imm reg) ∧
        descriptorPorts i = immediatePorts op imm reg ∧ legalReg reg = true ∧ inspectPort s.regs reg = some a) ∨
      ∃ op src dst a b, exec i s = .next (s.afterAlu .register op a b dst) ∧
        descriptorPorts i = registerPorts op src dst ∧ legalReg src = true ∧ legalReg dst = true ∧
        inspectPort s.regs dst = some a ∧ inspectPort s.regs src = some b := by
  have val : ∀ {r : RegIdx}, legalReg r = true → ∃ v, inspectPort s.regs r = some v := inspectPort_legal s.regs
  cases i with
  | exit => exact .inl rfl
  | movi imm reg =>
      obtain ⟨a, ha⟩ := val hw
      exact .inr (.inl ⟨.result .pass, imm, reg, a, passImm_legal imm s hw, rfl, hw, ha⟩)
  | addi imm reg | subi imm reg | muli imm reg | imuli imm reg =>
      obtain ⟨a, ha⟩ := val hw
      exact .inr (.inl ⟨.result _, imm, reg, a, resultImm_legal _ imm hw ha, rfl, hw, ha⟩)
  | divi imm reg | idivi imm reg =>
      obtain ⟨a, ha⟩ := val hw
      exact .inr (.inl ⟨.division _, imm, reg, a, divideImm_legal _ imm hw ha, rfl, hw, ha⟩)
  | movr src dst =>
      obtain ⟨hs, hd⟩ := Bool.and_eq_true_iff.mp hw
      obtain ⟨a, ha⟩ := val hd
      obtain ⟨b, hb⟩ := val hs
      exact .inr (.inr ⟨.result .pass, src, dst, a, b, passReg_legal hs hd hb, rfl, hs, hd, ha, hb⟩)
  | addr src dst | subr src dst | mulr src dst | imulr src dst =>
      obtain ⟨hs, hd⟩ := Bool.and_eq_true_iff.mp hw
      obtain ⟨a, ha⟩ := val hd
      obtain ⟨b, hb⟩ := val hs
      exact .inr (.inr ⟨.result _, src, dst, a, b, resultReg_legal _ hs hd ha hb, rfl, hs, hd, ha, hb⟩)
  | divr src dst | idivr src dst =>
      obtain ⟨hs, hd⟩ := Bool.and_eq_true_iff.mp hw
      obtain ⟨a, ha⟩ := val hd
      obtain ⟨b, hb⟩ := val hs
      exact .inr (.inr ⟨.division _, src, dst, a, b, divideReg_legal _ hs hd ha hb, rfl, hs, hd, ha, hb⟩)

/-- R13: a well-formed instruction raises nothing of its own. -/
theorem exec_completes {i : Instr} (s : State) (hw : i.wf = true) : ∃ t, exec i s = .next t := by
  obtain rfl | ⟨_, _, _, _, he, _⟩ | ⟨_, _, _, _, _, he, _⟩ := exec_wf_cases s hw
  · exact ⟨_, rfl⟩
  · exact ⟨_, he⟩
  · exact ⟨_, he⟩

/-- Settles O31, by the case split of `exec_wf_cases`. -/
theorem wellFormedInstructionsComplete : Obligations.WellFormedInstructionsComplete :=
  fun _ s hw => exec_completes s hw

/-! ## Executing a descriptor on the ports -/

/-- A code on `alu_op` selects the operation it was made from (R121). -/
theorem aluOpOfCode_code (op : AluOp) : aluOpOfCode op.code = some op := by
  obtain o | o := op <;> cases o <;> rfl

/-- The write ports, driven by the ALU's outputs, commit `aluWritten`: `res` to `wb`, `quot` and `rem` to GP0 and GP1,
and nothing where `bz` is set (R85, R151). -/
theorem commit_writeBackPorts (op : AluOp) (a b : Word) {wb : RegIdx} (x : RegFile) (h : legalReg wb = true) :
    commit x (writeBackPorts (aluBlock op a b) wb).1 (writeBackPorts (aluBlock op a b) wb).2 =
      .ok (aluWritten op a b wb x) := by
  cases op with
  | result o => exact commit_one x _ h
  | division o =>
      by_cases hb : b = 0
      · simp [writeBackPorts, aluBlock, aluWritten, divided, hb]
      · have hw : writeBackPorts (aluBlock (.division o) a b) wb =
            (some (Config.quotientReg, aluQuot o a b), some (Config.remainderReg, aluRem o a b)) := by
          simp only [writeBackPorts, aluBlock, beq_iff_eq, if_neg hb, Option.map_some]
        simp only [hw, commit_quot_rem, aluWritten, divided, if_neg hb]

theorem executePorts_immediate (op : AluOp) (imm : Word) {reg : RegIdx} {s : State} {a : Word}
    (h : legalReg reg = true) (ha : inspectPort s.regs reg = some a) :
    executePorts (immediatePorts op imm reg) s = some (.next (s.afterAlu .immediate op a imm reg)) := by
  have hread := readPort_ok_iff.mpr ⟨h, ha⟩
  simp [executePorts, immediatePorts, operandB, aluOpOfCode_code, hread, commit_writeBackPorts op a imm s.regs h,
    State.afterAlu, Format.length]

theorem executePorts_register (op : AluOp) {src dst : RegIdx} {s : State} {a b : Word}
    (hs : legalReg src = true) (hd : legalReg dst = true)
    (ha : inspectPort s.regs dst = some a) (hb : inspectPort s.regs src = some b) :
    executePorts (registerPorts op src dst) s = some (.next (s.afterAlu .register op a b dst)) := by
  have hreadA := readPort_ok_iff.mpr ⟨hd, ha⟩
  have hreadB := readPort_ok_iff.mpr ⟨hs, hb⟩
  simp [executePorts, registerPorts, operandB, aluOpOfCode_code, hreadA, hreadB,
    commit_writeBackPorts op a b s.regs hd, State.afterAlu, Format.length]

/-- The blocks execute a well-formed descriptor as `exec` does (R85, R172). -/
theorem executePorts_descriptorPorts {i : Instr} (s : State) (hw : i.wf = true) :
    executePorts (descriptorPorts i) s = some (exec i s) := by
  obtain rfl | ⟨op, imm, reg, a, he, hp, h, ha⟩ | ⟨op, src, dst, a, b, he, hp, hs, hd, ha, hb⟩ :=
    exec_wf_cases s hw
  · rfl
  · rw [hp, he, executePorts_immediate op imm h ha]
  · rw [hp, he, executePorts_register op hs hd ha hb]

/-! ## What the decoder can answer -/

/-- A decoded instruction is well formed (R82). -/
theorem decodeOperands_wf {o : Op} {bs : List Byte} {i : Instr} (h : decodeOperands o bs = .instr i) :
    i.wf = true := by
  have legal : ∀ {r : Byte}, r.toNat < 10 → legalReg (r.setWidth 4) = true := fun hr => (regByte_setWidth hr).1
  cases o with
  | exit => cases h; rfl
  | movi | addi | subi | muli | imuli | divi | idivi =>
      obtain ⟨lo, hi, r, _, _, hr, rfl⟩ := decodeImmForm_instr h
      exact legal hr
  | movr | addr | subr | mulr | imulr | divr | idivr =>
      obtain ⟨x, d, _, _, hx, hd, rfl⟩ := decodeRegForm_instr h
      exact Bool.and_eq_true_iff.mpr ⟨legal hx, legal hd⟩

theorem decode_wf {b : Byte} {rest : List Byte} {i : Instr} (h : decode b rest = .instr i) : i.wf = true := by
  unfold decode at h
  split at h
  · cases h
  · exact decodeOperands_wf h

/-- What an error raised at opcode byte `b`, with `present` bytes there, records of them (R191 to R193). A required
length is at most 4, so it fits the decoder's output `len`. -/
def RecordsBytes (b : Byte) (present : Nat) : FatalError → Prop
  | .unrecognizedOpcode op => op = b
  | .truncated op required remaining => op = b ∧ required ≤ 4 ∧ remaining = present
  | .illegalRegister op _ _ => op = b

theorem decodeReg_raise {o : Op} {role : RegRole} {r : Byte} {k : RegIdx → Decoded} {n : Nat} {e : FatalError}
    (hk : ∀ i, k i = .raise e → RecordsBytes o.code n e) (h : decodeReg o role r k = .raise e) :
    RecordsBytes o.code n e := by
  obtain ⟨_, he⟩ | ⟨_, he⟩ := decodeReg_cases o role r k
  · exact hk _ (he ▸ h)
  · rw [he] at h; cases h; rfl

theorem truncatedAfter_raise {o : Op} {n : Nat} {e : FatalError} (h : truncatedAfter o n = .raise e) :
    RecordsBytes o.code (1 + n) e := by
  cases h; exact ⟨rfl, o.len_range.2, rfl⟩

theorem decodeImmForm_raise {o : Op} {mk : Word → RegIdx → Instr} {bs : List Byte} {e : FatalError}
    (h : decodeImmForm o mk bs = .raise e) : RecordsBytes o.code (1 + bs.length) e := by
  match bs, h with
  | _ :: _ :: _ :: _, h =>
      rw [decodeImmForm_cons] at h
      refine decodeReg_raise (fun i hi => ?_) h
      cases hi
  | [], h | [_], h | [_, _], h => exact truncatedAfter_raise h

theorem decodeRegForm_raise {o : Op} {mk : RegIdx → RegIdx → Instr} {bs : List Byte} {e : FatalError}
    (h : decodeRegForm o mk bs = .raise e) : RecordsBytes o.code (1 + bs.length) e := by
  match bs, h with
  | _ :: _ :: _, h =>
      rw [decodeRegForm_cons] at h
      refine decodeReg_raise (fun i hi => decodeReg_raise (fun j hj => ?_) hi) h
      cases hj
  | [], h | [_], h => exact truncatedAfter_raise h

theorem decodeOperands_raise {o : Op} {bs : List Byte} {e : FatalError} (h : decodeOperands o bs = .raise e) :
    RecordsBytes o.code (1 + bs.length) e := by
  cases o with
  | exit => cases h
  | movi | addi | subi | muli | imuli | divi | idivi => exact decodeImmForm_raise h
  | movr | addr | subr | mulr | imulr | divr | idivr => exact decodeRegForm_raise h

/-- Every error the decoder raises records the opcode byte and the number of bytes present. -/
theorem decode_raise {b : Byte} {rest : List Byte} {e : FatalError} (h : decode b rest = .raise e) :
    RecordsBytes b (1 + rest.length) e := by
  unfold decode at h
  split at h
  · rename_i e' he
    cases h
    obtain ⟨rfl, _⟩ | ⟨o, rfl, _, rfl⟩ := decodeOpcode_error_cases he
    · rfl
    · exact ⟨rfl, o.len_range.2, rfl⟩
  · rename_i o ho
    rw [(decodeOpcode_ok_iff.mp ho).1]
    exact decodeOperands_raise h

/-! ## The error record made from the ports -/

/-- A code on `err_role` names the role it was made from (R194). -/
theorem roleOfCode_roleCode (role : RegRole) : roleOfCode (roleCode role) = some role := by
  cases role <;> rfl

/-- The record the FSM forms from the decoder's outputs is the error raised (R84, R194). -/
theorem recordFromPorts_errorPorts {e : FatalError} {ib0 : Byte} {rem : BitVec 3}
    (h : RecordsBytes ib0 rem.toNat e) : recordFromPorts (errorPorts e) ib0 rem = some e := by
  cases e with
  | unrecognizedOpcode op => cases h; rfl
  | truncated op required remaining =>
      obtain ⟨rfl, hreq, rfl⟩ := h
      have hfit : required % 8 = required := Nat.mod_eq_of_lt (by omega)
      simp [recordFromPorts, errorPorts, errCode, hfit]
  | illegalRegister op role value =>
      cases h
      simp [recordFromPorts, errorPorts, errCode, roleOfCode_roleCode]

/-! ## The bytes the decoder block sees -/

/-- The check of steps 1 to 3 is the same on `min(L - pc, 4)` bytes, because no instruction is longer (R74, R84). -/
theorem decodeOpcode_min_four (b : Byte) (n : Nat) : decodeOpcode b (min n 4) = decodeOpcode b n := by
  unfold decodeOpcode
  split
  · rfl
  · rename_i o _
    have hlen := o.len_range.2
    by_cases h : n < o.len
    · rw [Nat.min_eq_left (by omega)]
    · rw [if_neg h, if_neg (by omega)]

theorem decodeImmForm_take (o : Op) (mk : Word → RegIdx → Instr) (bs : List Byte) :
    decodeImmForm o mk (bs.take 3) = decodeImmForm o mk bs := by
  match bs with
  | _ :: _ :: _ :: _ | [] | [_] | [_, _] => rfl

theorem decodeRegForm_take (o : Op) (mk : RegIdx → RegIdx → Instr) (bs : List Byte) :
    decodeRegForm o mk (bs.take 2) = decodeRegForm o mk bs := by
  match bs with
  | _ :: _ :: _ | [] | [_] => rfl

/-- Bytes after the instruction do not count (R83). -/
theorem decodeOperands_take (o : Op) (bs : List Byte) :
    decodeOperands o (bs.take (o.len - 1)) = decodeOperands o bs := by
  cases o with
  | exit => rfl
  | movi | addi | subi | muli | imuli | divi | idivi => exact decodeImmForm_take _ _ bs
  | movr | addr | subr | mulr | imulr | divr | idivr => exact decodeRegForm_take _ _ bs

/-- The decoder's inputs after the opcode byte that count: `ibk` for `1 ≤ k < n` (R84). -/
def operandInputs (s : State) (n : Nat) : List Byte :=
  [inputByte s 1, inputByte s 2, inputByte s 3].take (n - 1)

theorem operandInputs_length (s : State) {n : Nat} (h : n ≤ 4) : (operandInputs s n).length = n - 1 := by
  simp [operandInputs]; omega

theorem operandInputs_getElem (s : State) (n k : Nat) (h : k < (operandInputs s n).length) :
    (operandInputs s n)[k] = inputByte s (k + 1) := by
  have hk : k < 3 := by simp [operandInputs] at h; omega
  rw [show (operandInputs s n)[k] = [inputByte s 1, inputByte s 2, inputByte s 3][k] from List.getElem_take]
  match k, hk with
  | 0, _ | 1, _ | 2, _ => rfl

/-- An input whose offset lies below L is the byte read there, when the host presented its bytes (R84, R228). -/
theorem memRead_inputByte {s : State} (hp : s.Presented) {k : Nat} (hk : s.pc + k < s.bufLen) :
    memRead s (s.pc + k) = .ok (inputByte s k) := by
  obtain ⟨b, hb⟩ := Option.isSome_iff_exists.mp ((hp (s.pc + k)).mp hk)
  exact memRead_ok_iff.mpr ⟨hk, by simp [inputByte, hb]⟩

/-- The operand bytes a fetch reads are the first of the decoder's inputs. -/
theorem memReads_operandInputs {s : State} (hp : s.Presented) {n m : Nat} (hmn : m ≤ n) (hn : n ≤ 4)
    (hin : m ≤ s.bufLen - s.pc) :
    memReads s (s.pc + 1) (m - 1) = .ok ((operandInputs s n).take (m - 1)) := by
  have hlen := operandInputs_length s hn
  refine memReads_ok_iff.mpr ⟨by rw [List.length_take, hlen]; omega, fun k hk => ?_⟩
  rw [List.length_take] at hk
  rw [List.getElem_take, operandInputs_getElem, show s.pc + 1 + k = s.pc + (k + 1) by omega]
  exact memRead_inputByte hp (by omega)

/-- The window of `min(L - pc, 4)` bytes at the decoder's inputs decodes to what the fetch gives (R81, R84). -/
theorem fetch_eq_decode_inputs {s : State} (hp : s.Presented) (hin : s.pc < s.bufLen) :
    fetch s = .ok (decode (inputByte s 0) (operandInputs s (min (s.bufLen - s.pc) 4))) := by
  have h0 : memRead s s.pc = .ok (inputByte s 0) := memRead_inputByte hp (k := 0) hin
  have hcount : 1 + (operandInputs s (min (s.bufLen - s.pc) 4)).length = min (s.bufLen - s.pc) 4 := by
    rw [operandInputs_length s (by omega)]; omega
  unfold decode
  rw [hcount, decodeOpcode_min_four]
  refine fetch_ok_iff.mpr ⟨_, h0, ?_⟩
  cases ho : decodeOpcode (inputByte s 0) (s.bufLen - s.pc) with
  | error e => exact .inl ⟨e, rfl, rfl⟩
  | ok o =>
      have hlen := (decodeOpcode_ok_iff.mp ho).2
      have h4 := o.len_range.2
      exact .inr ⟨o, _, rfl, memReads_operandInputs hp (by omega) (by omega) hlen, (decodeOperands_take o _).symm⟩

/-! ## The decoder block -/

@[simp] theorem descriptorPorts_decOk (i : Instr) : (descriptorPorts i).decOk = true := rfl

@[simp] theorem errorPorts_decOk (e : FatalError) : (errorPorts e).decOk = false := rfl

/-- The decoder's outputs for what decoding gives (R84). -/
def decodedPorts : Decoded → DecoderPorts
  | .instr i => descriptorPorts i
  | .raise e => errorPorts e

theorem inputRem_toNat (s : State) : (inputRem s).toNat = min (s.bufLen - s.pc) 4 := by
  rw [inputRem, BitVec.toNat_ofNat, Nat.mod_eq_of_lt (by omega)]

/-- On the inputs of a state inside the buffer, the decoder block puts out what the fetch gives. -/
theorem decoderBlock_inputs {s : State} (hin : s.pc < s.bufLen) :
    decoderBlock (inputByte s 0) (inputByte s 1) (inputByte s 2) (inputByte s 3) (inputRem s) =
      some (decodedPorts (decode (inputByte s 0) (operandInputs s (inputRem s).toNat))) := by
  have hrem := inputRem_toNat s
  obtain ⟨m, hm⟩ : ∃ m, (inputRem s).toNat = m + 1 := ⟨(inputRem s).toNat - 1, by omega⟩
  have hle : ¬ 4 < m + 1 := by omega
  simp only [decoderBlock, hm, List.take_succ_cons, decodeBytes, if_neg hle, operandInputs, Nat.add_sub_cancel]
  cases decode (inputByte s 0) ([inputByte s 1, inputByte s 2, inputByte s 3].take m) <;> rfl

/-! ## The step on the blocks -/

/-- From any Running state inside a presented buffer the blocks take the step. -/
theorem blockStep_eq_step {s : State} (hrun : s.run = .running) (hp : s.Presented) (hin : s.pc < s.bufLen) :
    blockStep s = some (step s) := by
  have hfetch := fetch_eq_decode_inputs hp hin
  have hlen := operandInputs_length s (Nat.min_le_right (s.bufLen - s.pc) 4)
  rw [← inputRem_toNat] at hfetch hlen
  rw [step_of_running hrun, stepRunning, hfetch, blockStep, decoderBlock_inputs hin]
  cases hd : decode (inputByte s 0) (operandInputs s (inputRem s).toNat) with
  | instr i => simp [decodedPorts, executePorts_descriptorPorts s (decode_wf hd)]
  | raise e =>
      have hrec := decode_raise hd
      have hrem := inputRem_toNat s
      rw [hlen, show 1 + ((inputRem s).toNat - 1) = (inputRem s).toNat by omega] at hrec
      simp [decodedPorts, recordFromPorts_errorPorts hrec]

/-- Settles O45, by `blockStep_eq_step`: of the invariant it takes the presented buffer and the pc inside it. -/
theorem blocksRefineTheStep : Obligations.BlocksRefineTheStep :=
  fun _ hinv hrun => blockStep_eq_step hrun hinv.presented (hinv.runningInside hrun)

end Sys2Proof.Machine
end

section
/-! SUPPORT. What every step keeps (10_state.md): terminal states, what the host reads between runs, the slots an
instruction may write, the refusal of ill-formed terms, the FLAGS slot, the shape of the errors the decoder raises, and
the invariant. -/

namespace Sys2Proof.Machine

/-! ## Terminal states -/

/-- Settles O40, by induction on the number of steps. -/
theorem terminalStatesStay : Obligations.TerminalStatesStay := by
  intro n s h
  induction n with
  | zero => exact core_run_zero s
  | succ n ih => rw [core_run_succ (step_of_not_running h), ih]

/-! ## What the host reads between runs -/

/-- The inspection port carries the slots 0 to 10 and no other index (R28). -/
theorem inspectPort_eq_none_iff {x : RegFile} {i : RegIdx} : inspectPort x i = none ↔ 11 ≤ i.toNat := by
  unfold inspectPort
  exact Vector.getElem?_eq_none_iff

theorem hostInspect_of_some {s : State} {i : RegIdx} {v : Word} (h : s.run ≠ .running)
    (hv : inspectPort s.regs i = some v) : hostInspect i s = .ok v := by
  unfold hostInspect
  rw [hv]
  split
  · contradiction
  · rfl

theorem hostInspect_of_none {s : State} {i : RegIdx} (h : s.run ≠ .running)
    (hv : inspectPort s.regs i = none) : hostInspect i s = .error (.registerPort i) := by
  unfold hostInspect
  rw [hv]
  split
  · contradiction
  · rfl

theorem hostReadStatus_of_not_running {s : State} (h : s.run ≠ .running) : hostReadStatus s = .ok s.status := by
  unfold hostReadStatus
  split
  · contradiction
  · rfl

/-- Settles O58, by the indices of the inspection port. -/
theorem hostReadsAnswerBetweenRuns : Obligations.HostReadsAnswerBetweenRuns := by
  refine fun s h => ⟨fun i hi => ?_, fun i hi => ?_, hostReadStatus_of_not_running h⟩
  · have hsome : inspectPort s.regs i ≠ none := fun hn => absurd (inspectPort_eq_none_iff.mp hn) (by omega)
    obtain ⟨v, hv⟩ := Option.ne_none_iff_exists'.mp hsome
    exact ⟨v, hv, hostInspect_of_some h hv⟩
  · exact hostInspect_of_none h (inspectPort_eq_none_iff.mpr hi)

/-! ## The slots an instruction may write -/

/-- The bound the statements use for an operand index is the legal range of R22. -/
theorem legalReg_of_le_nine {i : RegIdx} (h : i.toNat ≤ 9) : legalReg i = true :=
  legalReg_iff.mpr (Nat.lt_succ_of_le h)

/-- A single write to a slot goes through on a legal index only, and replaces that slot. -/
theorem commit_one_ok {x y : RegFile} {i : RegIdx} {v : Word} (h : commit x (some (i, v)) none = .ok y) :
    legalReg i = true ∧ y = setSlot x i v := by
  cases hi : legalReg i with
  | true => rw [commit_one x v hi] at h; cases h; exact ⟨rfl, rfl⟩
  | false => rw [commit_one_illegal x v hi] at h; cases h

theorem complete_one_slotsKept {f : Format} {i : RegIdx} {v : Word} {s t : State}
    (h : complete f (some (i, v)) none s = .next t) : s.SlotsKept t [i] := by
  obtain ⟨x, hx, rfl⟩ := complete_next_iff.mp h
  obtain ⟨hi, rfl⟩ := commit_one_ok hx
  exact fun j hj => inspectPort_setSlot_other s.regs v hi (List.ne_of_not_mem_cons hj)

theorem divideInto_slotsKept {o : DivOp} {f : Format} {a b : Word} {s t : State}
    (h : divideInto o f a b s = .next t) : s.SlotsKept t [0, 1] := by
  rw [divideInto_eq] at h
  cases h
  intro j hj
  have h0 : j ≠ 0 := List.ne_of_not_mem_cons hj
  have h1 : j ≠ 1 := List.ne_of_not_mem_cons (List.not_mem_of_not_mem_cons hj)
  rw [State.withPc_regs, State.withRegs_regs, inspectPort_divided, if_neg h0, if_neg h1, ite_self]

/-- R24: an instruction that completes changes no slot outside its own list. -/
theorem exec_slotsKept {i : Instr} {s t : State} (h : exec i s = .next t) : s.SlotsKept t (writtenSlots i) := by
  cases i with
  | exit => cases h; exact fun _ _ => rfl
  | movi => exact complete_one_slotsKept h
  | movr | addi | subi | muli | imuli =>
      obtain ⟨_, _, _, h⟩ := withReg_next h
      exact complete_one_slotsKept h
  | addr | subr | mulr | imulr =>
      obtain ⟨_, _, _, h⟩ := withReg_next h
      obtain ⟨_, _, _, h⟩ := withReg_next h
      exact complete_one_slotsKept h
  | divi | idivi =>
      obtain ⟨_, _, _, h⟩ := withReg_next h
      exact divideInto_slotsKept h
  | divr | idivr =>
      obtain ⟨_, _, _, h⟩ := withReg_next h
      obtain ⟨_, _, _, h⟩ := withReg_next h
      exact divideInto_slotsKept h

/-- After a division by a divisor other than 0, GP0 holds the quotient and GP1 the remainder (R150). -/
theorem inspectPort_divided_results (o : DivOp) (a : Word) {b : Word} (x : RegFile) (hb : b ≠ 0) :
    inspectPort (divided o a b x) 0 = some (aluQuot o a b) ∧
      inspectPort (divided o a b x) 1 = some (aluRem o a b) := by
  simp only [inspectPort_divided, if_neg hb]
  exact ⟨rfl, rfl⟩

/-- Settles O30: the frame of each instruction, and the two results of a division by immediate and by register. -/
theorem onlyDivisionsWriteUnnamedRegisters : Obligations.OnlyDivisionsWriteUnnamedRegisters := by
  refine ⟨fun _ _ _ h => exec_slotsKept h, fun o imm reg s d hreg hd himm => ?_,
    fun o src dst s d v hsrc hdst hd hv hne => ?_⟩
  · have hexec := divideImm_legal o imm (legalReg_of_le_nine hreg) hd
    have hres := inspectPort_divided_results o d s.regs himm
    cases o <;> exact ⟨_, hexec, hres⟩
  · have hexec := divideReg_legal o (legalReg_of_le_nine hsrc) (legalReg_of_le_nine hdst) hd hv
    have hres := inspectPort_divided_results o d s.regs hne
    cases o <;> exact ⟨_, hexec, hres⟩

/-! ## Ill-formed terms -/

/-- The result is a refusal at the register file's ports, which names an index outside 0..9 (R29). -/
def RefusedAtPort (r : Result) : Prop := ∃ k : RegIdx, legalReg k = false ∧ r = .refused (.registerPort k)

theorem complete_one_refusedAtPort (f : Format) {i : RegIdx} (v : Word) (s : State) (h : legalReg i = false) :
    RefusedAtPort (complete f (some (i, v)) none s) := by
  refine ⟨i, h, ?_⟩
  rw [complete, commit_one_illegal _ v h]

theorem withReg_illegal_refusedAtPort (s : State) {i : RegIdx} (k : Word → Result) (h : legalReg i = false) :
    RefusedAtPort (withReg s i k) := ⟨i, h, withReg_illegal s h k⟩

/-- A read port refuses, or what follows does. -/
theorem withReg_refusedAtPort {s : State} {i : RegIdx} {k : Word → Result}
    (hk : legalReg i = true → ∀ a, RefusedAtPort (k a)) : RefusedAtPort (withReg s i k) := by
  cases hi : legalReg i with
  | true =>
      obtain ⟨a, ha⟩ := inspectPort_legal s.regs hi
      rw [withReg_legal hi ha]
      exact hk hi a
  | false => exact withReg_illegal_refusedAtPort s k hi

/-- Of two operands that are not both legal, the second is illegal when the first is legal. -/
theorem not_legalReg_of_pair {i j : RegIdx} (h : (legalReg i && legalReg j) = false) (hi : legalReg i = true) :
    legalReg j = false := by
  rwa [hi, Bool.true_and] at h

/-- R29: an instruction term that is not well formed is refused at a port, whatever the state. -/
theorem exec_refusedAtPort {i : Instr} (s : State) (h : i.wf = false) : RefusedAtPort (exec i s) := by
  cases i with
  | exit => cases h
  | movi imm reg => exact complete_one_refusedAtPort _ imm s h
  | addi _ reg | subi _ reg | muli _ reg | imuli _ reg | divi _ reg | idivi _ reg =>
      exact withReg_illegal_refusedAtPort s _ h
  | movr src dst =>
      exact withReg_refusedAtPort fun hs _ => complete_one_refusedAtPort _ _ s (not_legalReg_of_pair h hs)
  | addr src dst | subr src dst | mulr src dst | imulr src dst | divr src dst | idivr src dst =>
      have h' := (Bool.and_comm (legalReg dst) (legalReg src)).trans h
      exact withReg_refusedAtPort fun hd _ => withReg_illegal_refusedAtPort s _ (not_legalReg_of_pair h' hd)

/-- Settles O32, by `exec_refusedAtPort`. -/
theorem illFormedInstructionsAreRefused : Obligations.IllFormedInstructionsAreRefused := by
  intro i s h
  obtain ⟨k, hk, he⟩ := exec_refusedAtPort s h
  exact ⟨k, Nat.le_of_not_lt fun hlt => by simp [legalReg_iff.mpr hlt] at hk, he⟩

/-! ## The FLAGS slot: every operation commutes with replacing its value -/

/-- The state with another value in the FLAGS slot. -/
def State.withFlags (v : Word) (s : State) : State := s.withRegs (s.regs.set 10 v)

@[simp] theorem State.withFlags_regs (v : Word) (s : State) : (s.withFlags v).regs = s.regs.set 10 v := rfl

theorem State.flags_withFlags (v : Word) (s : State) : (s.withFlags v).flags = v := by
  simp [State.flags]

theorem State.withFlags_flags (s : State) : s.withFlags s.flags = s := by
  simp [State.withFlags, State.withRegs, State.flags]

/-- FLAGS is behind no read port (R27, R28). -/
theorem readPort_setFlags (x : RegFile) (i : RegIdx) (v : Word) : readPort (x.set 10 v) i = readPort x i := by
  unfold readPort
  split
  · rename_i h
    have hne : 10 ≠ i.toNat := Nat.ne_of_gt h
    rw [Vector.getElem_set_ne _ _ hne]
  · rfl

/-- A legal slot is not FLAGS. -/
theorem setSlot_setFlags (x : RegFile) {i : RegIdx} (a v : Word) (h : legalReg i = true) :
    setSlot (x.set 10 v) i a = (setSlot x i a).set 10 v := by
  have hne : i.toNat ≠ 10 := Nat.ne_of_lt (legalReg_iff.mp h)
  apply Vector.ext
  intro n hn
  simp only [setSlot, Vector.getElem_setIfInBounds, Vector.getElem_set]
  by_cases h10 : 10 = n
  · rw [if_pos h10, if_pos h10, if_neg (by omega)]
  · rw [if_neg h10, if_neg h10]

/-- No write port touches FLAGS (R27). -/
theorem writeSlot_setFlags {x y : RegFile} {w : WritePort} (v : Word) (h : writeSlot x w = .ok y) :
    writeSlot (x.set 10 v) w = .ok (y.set 10 v) := by
  match w with
  | none => cases h; rfl
  | some (i, a) =>
      cases hi : legalReg i with
      | true =>
          rw [writeSlot_legal x a hi] at h
          cases h
          rw [writeSlot_legal _ a hi, setSlot_setFlags x a v hi]
      | false => rw [writeSlot_illegal x a hi] at h; cases h

theorem commit_setFlags {x y : RegFile} {w0 w1 : WritePort} (v : Word) (h : commit x w0 w1 = .ok y) :
    commit (x.set 10 v) w0 w1 = .ok (y.set 10 v) := by
  match w0, w1, h with
  | none, none, h => exact writeSlot_setFlags (w := none) v h
  | none, some p, h | some p, none, h => exact writeSlot_setFlags (w := some p) v h
  | some (i, a), some (j, b), h =>
      by_cases hij : i = j
      · simp [commit, hij] at h
      · simp only [commit, if_neg hij] at h ⊢
        split at h
        · rename_i z hz
          rw [writeSlot_setFlags v hz]
          exact writeSlot_setFlags v h
        · cases h

theorem complete_withFlags {f : Format} {w0 w1 : WritePort} {s t : State} (v : Word)
    (h : complete f w0 w1 s = .next t) : complete f w0 w1 (s.withFlags v) = .next (t.withFlags v) := by
  obtain ⟨x, hx, rfl⟩ := complete_next_iff.mp h
  exact complete_next_iff.mpr ⟨_, commit_setFlags v hx, rfl⟩

theorem divideInto_withFlags {o : DivOp} {f : Format} {a b : Word} {s t : State} (v : Word)
    (h : divideInto o f a b s = .next t) : divideInto o f a b (s.withFlags v) = .next (t.withFlags v) := by
  by_cases hb : b = 0
  · simp only [divideInto, if_pos hb] at h ⊢
    exact complete_withFlags v h
  · simp only [divideInto, if_neg hb] at h ⊢
    exact complete_withFlags v h

/-- With another value in FLAGS a read port gives the same operand. -/
theorem withReg_withFlags {s t u : State} {i : RegIdx} {k k' : Word → Result} (v : Word)
    (h : withReg s i k = .next t) (hk : ∀ a, k a = .next t → k' a = .next u) :
    withReg (s.withFlags v) i k' = .next u := by
  obtain ⟨a, hi, ha, hka⟩ := withReg_next h
  have hread : readPort (s.withFlags v).regs i = .ok a :=
    (readPort_setFlags s.regs i v).trans (readPort_ok_iff.mpr ⟨hi, ha⟩)
  rw [withReg, hread]
  exact hk a hka

theorem exec_withFlags {i : Instr} {s t : State} (v : Word) (h : exec i s = .next t) :
    exec i (s.withFlags v) = .next (t.withFlags v) := by
  cases i with
  | exit => cases h; rfl
  | movi => exact complete_withFlags v h
  | movr | addi | subi | muli | imuli => exact withReg_withFlags v h fun _ => complete_withFlags v
  | addr | subr | mulr | imulr =>
      exact withReg_withFlags v h fun _ h => withReg_withFlags v h fun _ => complete_withFlags v
  | divi | idivi => exact withReg_withFlags v h fun _ => divideInto_withFlags v
  | divr | idivr => exact withReg_withFlags v h fun _ h => withReg_withFlags v h fun _ => divideInto_withFlags v

theorem State.exhaust_withFlags (v : Word) (s : State) : (s.withFlags v).exhaust = s.exhaust.withFlags v :=
  (apply_ite (State.withFlags v) (s.pc = s.bufLen) (s.withRun .halted) s).symm

/-- R25: with another value in FLAGS a step does the same, and keeps that value there. -/
theorem step_withFlags {s t : State} (v : Word) (h : step s = .next t) :
    step (s.withFlags v) = .next (t.withFlags v) := by
  by_cases hrun : s.run = .running
  · rw [step_of_running hrun] at h
    rw [step_of_running (s := s.withFlags v) hrun]
    have hfetch : fetch (s.withFlags v) = fetch s := fetch_congr rfl rfl rfl
    rw [stepRunning_next_iff, hfetch]
    obtain ⟨e, he, rfl⟩ | ⟨i, u, hi, hu, rfl⟩ := stepRunning_next_iff.mp h
    · exact .inl ⟨e, he, rfl⟩
    · exact .inr ⟨i, u.withFlags v, hi, exec_withFlags v hu, (u.exhaust_withFlags v).symm⟩
  · rw [step_of_not_running hrun] at h
    cases h
    exact step_of_not_running (s := s.withFlags v) hrun

/-- R42: a step leaves FLAGS as it is. It is `step_withFlags` for the value that stands there. -/
theorem step_flags {s t : State} (h : step s = .next t) : t.flags = s.flags := by
  have hset := step_withFlags s.flags h
  rw [s.withFlags_flags, h] at hset
  have ht : t = t.withFlags s.flags := Host.Outcome.next.inj hset
  calc t.flags = (t.withFlags s.flags).flags := congrArg State.flags ht
    _ = s.flags := t.flags_withFlags s.flags

/-- Settles O33, by `step_flags` and `step_withFlags`. -/
theorem flagsIsNeitherReadNorWritten : Obligations.FlagsIsNeitherReadNorWritten :=
  ⟨fun _ _ h => step_flags h, fun _ _ v h => step_withFlags v h⟩

/-! ## The shape of a raised error -/

theorem recordShape_unrecognized {b : Byte} (h : ∀ o : Op, b ≠ o.code) :
    recordShape (.unrecognizedOpcode b) = true := by
  simp [recordShape, opOfByte_eq_none_iff.mpr h]

/-- A truncation of at least the opcode byte: EXIT is too short for one, so `required` is 3 or 4 (R192). -/
theorem recordShape_truncated {o : Op} {n : Nat} (h1 : 1 ≤ n) (hlt : n < o.len) :
    recordShape (.truncated o.code o.len n) = true := by
  have hexit : o ≠ .exit := by
    rintro rfl
    exact absurd hlt (Nat.not_lt_of_le h1)
  have h3 := Op.three_le_len hexit
  have h4 := o.len_range.2
  have hlen : o.len = 3 ∨ o.len = 4 := by omega
  have hn : n ≤ 3 := by omega
  simp [recordShape, opOfByte_code, hlen, h1, hn, hlt]

theorem recordShape_illegalRegister (o : Op) (role : RegRole) {r : Byte} (h : 10 ≤ r.toNat) :
    recordShape (.illegalRegister o.code role r) = true := by
  simp [recordShape, opOfByte_code, h]

/-- One register byte: it raises for itself, or what follows does. -/
theorem decodeReg_recordShape {o : Op} {role : RegRole} {r : Byte} {k : RegIdx → Decoded} {e : FatalError}
    (hk : ∀ i, k i = .raise e → recordShape e = true) (h : decodeReg o role r k = .raise e) :
    recordShape e = true := by
  obtain ⟨_, he⟩ | ⟨hr, he⟩ := decodeReg_cases o role r k
  · exact hk _ (he ▸ h)
  · rw [he] at h
    cases h
    exact recordShape_illegalRegister o role hr

theorem decodeImmForm_recordShape {o : Op} {mk : Word → RegIdx → Instr} {bs : List Byte} {e : FatalError}
    (hlen : bs.length = 3) (h : decodeImmForm o mk bs = .raise e) : recordShape e = true := by
  match bs, hlen, h with
  | [lo, hi, r], _, h =>
      rw [decodeImmForm_cons] at h
      refine decodeReg_recordShape (fun i hi => ?_) h
      cases hi

theorem decodeRegForm_recordShape {o : Op} {mk : RegIdx → RegIdx → Instr} {bs : List Byte} {e : FatalError}
    (hlen : bs.length = 2) (h : decodeRegForm o mk bs = .raise e) : recordShape e = true := by
  match bs, hlen, h with
  | [x, d], _, h =>
      rw [decodeRegForm_cons] at h
      refine decodeReg_recordShape (fun i hi => decodeReg_recordShape (fun j hj => ?_) hi) h
      cases hj

/-- With all its operand bytes there, an opcode can raise nothing but an illegal register (R81). -/
theorem decodeOperands_recordShape {o : Op} {bs : List Byte} {e : FatalError} (hlen : bs.length = o.len - 1)
    (h : decodeOperands o bs = .raise e) : recordShape e = true := by
  cases o with
  | exit => cases h
  | movi | addi | subi | muli | imuli | divi | idivi => exact decodeImmForm_recordShape hlen h
  | movr | addr | subr | mulr | imulr | divr | idivr => exact decodeRegForm_recordShape hlen h

/-- Settles O7, along the steps of the fetch: the opcode byte, the length, the register bytes. -/
theorem raisedErrorsHaveTheRecordedShape : Obligations.RaisedErrorsHaveTheRecordedShape := by
  intro s e h
  obtain ⟨b, hb, ⟨e', hop, he⟩ | ⟨o, bs, _, hbs, he⟩⟩ := fetch_ok_iff.mp h
  · cases he
    have hin : s.pc < s.bufLen := (memRead_ok_iff.mp hb).1
    obtain ⟨rfl, hnone⟩ | ⟨o, rfl, hlt, rfl⟩ := decodeOpcode_error_cases hop
    · exact recordShape_unrecognized hnone
    · exact recordShape_truncated (by omega) hlt
  · exact decodeOperands_recordShape (memReads_ok_iff.mp hbs).1 he.symm

/-! ## The invariant -/

/-- Settles O46: every clause at the values of construction. -/
theorem resetStateIsAllowed : Obligations.ResetStateIsAllowed where
  canonical := State.reset_mem_wf
  presented := fun a => by simp [State.reset, Memory.read]
  pcInside := Nat.le_refl 0
  runningInside := fun h => by cases h
  errAborted := by decide
  errHere := fun _ h => by cases h
  haltedWhy := fun _ => .inl rfl
  flagsZero := rfl

/-- The operands that decode spell an instruction of the opcode they follow. -/
theorem decodeOperands_op {o : Op} {bs : List Byte} {i : Instr} (h : decodeOperands o bs = .instr i) : i.op = o := by
  cases o with
  | exit => cases h; rfl
  | movi | addi | subi | muli | imuli | divi | idivi =>
      obtain ⟨_, _, _, _, _, _, rfl⟩ := decodeImmForm_instr h
      rfl
  | movr | addr | subr | mulr | imulr | divr | idivr =>
      obtain ⟨_, _, _, _, _, _, rfl⟩ := decodeRegForm_instr h
      rfl

/-- A fetched instruction stands at the pc with its own opcode and ends inside the buffer. -/
theorem fetch_instr_inside {s : State} {i : Instr} (h : fetch s = .ok (.instr i)) :
    memRead s s.pc = .ok i.op.code ∧ s.pc + i.len ≤ s.bufLen := by
  obtain ⟨o, bs, hb, hlen, _, hd⟩ := fetch_inside h
  have hop : i.op = o := decodeOperands_op hd
  have h1 := o.len_range.1
  subst hop
  exact ⟨hb, by unfold Instr.len; omega⟩

/-- The flags clause of the invariant reads FLAGS alone. -/
theorem flagsReserved_congr {s t : State} (h : t.flags = s.flags) (hs : s.flagsReserved = true) :
    t.flagsReserved = true := by
  rwa [State.flagsReserved, h]

section RunningState
variable {s : State}

theorem inv_err_none (hinv : s.Inv) (hrun : s.run = .running) : s.err = none :=
  hinv.errAborted.mpr (by simp [hrun])

/-- Taking the error that decoding raises at the pc keeps the invariant (R196). -/
theorem inv_abort {e : FatalError} (hinv : s.Inv) (hfetch : fetch s = .ok (.raise e)) : (s.abort e).Inv where
  canonical := hinv.canonical
  presented := hinv.presented
  pcInside := hinv.pcInside
  runningInside := fun h => by cases h
  errAborted := by simp
  errHere := fun _ h => by cases h; exact (fetch_congr (s := s) (t := s.abort e) rfl rfl rfl).trans hfetch
  haltedWhy := fun h => by cases h
  flagsZero := hinv.flagsZero

/-- Halting at an EXIT keeps the invariant (R170). -/
theorem inv_halt_at_exit (hinv : s.Inv) (hrun : s.run = .running) (hexit : memRead s s.pc = .ok Config.exitOpcode) :
    (s.withRun .halted).Inv where
  canonical := hinv.canonical
  presented := hinv.presented
  pcInside := hinv.pcInside
  runningInside := fun h => by cases h
  errAborted := by simp [inv_err_none hinv hrun]
  errHere := fun e h => (fetch_congr (s := s) (t := s.withRun .halted) rfl rfl rfl).trans (hinv.errHere e h)
  haltedWhy := fun _ => .inr hexit
  flagsZero := hinv.flagsZero

/-- Between an instruction and the end check the run may be Running at the end of the buffer: advancing inside the
buffer and then checking for its end keeps the invariant (R172). -/
theorem inv_advance {x : RegFile} {n : Nat} (hinv : s.Inv) (hrun : s.run = .running) (hend : n ≤ s.bufLen)
    (hflags : ((s.withRegs x).withPc n).exhaust.flags = s.flags) : ((s.withRegs x).withPc n).exhaust.Inv := by
  have herr := inv_err_none hinv hrun
  have hrun' : ((s.withRegs x).withPc n).exhaust.run = if n = s.bufLen then .halted else .running := by
    simp [State.exhaust_run, hrun]
  exact
    { canonical := by simpa using hinv.canonical
      presented := by simpa [State.Presented] using hinv.presented
      pcInside := by simpa using hend
      runningInside := fun h => by
        have hne : n ≠ s.bufLen := fun heq => by
          rw [hrun', if_pos heq] at h
          cases h
        simpa using Nat.lt_of_le_of_ne hend hne
      errAborted := by rw [hrun']; split <;> simp [herr]
      errHere := fun e h => by simp [herr] at h
      haltedWhy := fun h => by
        have heq : n = s.bufLen := by
          by_contra hne
          rw [hrun', if_neg hne] at h
          cases h
        exact .inl (by simpa using heq)
      flagsZero := flagsReserved_congr hflags hinv.flagsZero }

end RunningState

/-- Settles O47: a step of a Running state aborts at the pc, halts at an EXIT, or advances inside the buffer and checks
for its end; any other state stays. -/
theorem stepKeepsTheInvariant : Obligations.StepKeepsTheInvariant := by
  intro s t hinv hstep
  by_cases hrun : s.run = .running
  · have hflags : t.flags = s.flags := step_flags hstep
    rw [step_of_running hrun] at hstep
    obtain ⟨e, hfetch, rfl⟩ | ⟨i, u, hfetch, hexec, rfl⟩ := stepRunning_next_iff.mp hstep
    · exact inv_abort hinv hfetch
    · obtain ⟨hopcode, hinside⟩ := fetch_instr_inside hfetch
      obtain ⟨rfl, rfl⟩ | ⟨_, x, rfl⟩ := exec_next_cases hexec
      · have hhalt : (s.withRun .halted).exhaust = s.withRun .halted := ite_self _
        rw [hhalt]
        exact inv_halt_at_exit hinv hrun hopcode
      · exact inv_advance hinv hrun hinside hflags
  · rw [step_of_not_running hrun] at hstep
    cases hstep
    exact hinv

end Sys2Proof.Machine
end

section
/-! SUPPORT. The instruction buffer (20_memory.md): no step writes it, what a fetch depends on, and the byte order of
the immediates in the stream. -/

namespace Sys2Proof.Machine

/-! ## No step writes the buffer -/

/-- An instruction leaves the buffer and its length as they were (R51, R64). -/
theorem exec_keeps_buffer {i : Instr} {s t : State} (h : exec i s = .next t) :
    t.mem = s.mem ∧ t.bufLen = s.bufLen := by
  obtain ⟨_, rfl⟩ | ⟨_, x, rfl⟩ := exec_next_cases h <;> exact ⟨rfl, rfl⟩

/-- So does a step: it stays, aborts, or executes and checks for the end of the buffer. -/
theorem step_keeps_buffer {s t : State} (h : step s = .next t) : t.mem = s.mem ∧ t.bufLen = s.bufLen := by
  by_cases hrun : s.run = .running
  · rw [step_of_running hrun] at h
    obtain ⟨e, _, rfl⟩ | ⟨i, u, _, hexec, rfl⟩ := stepRunning_next_iff.mp h
    · exact ⟨rfl, rfl⟩
    · rw [State.exhaust_mem, State.exhaust_bufLen]
      exact exec_keeps_buffer hexec
  · rw [step_of_not_running hrun] at h
    cases h
    exact ⟨rfl, rfl⟩

/-- Settles O42, by `step_keeps_buffer`: a byte read depends on the buffer alone. -/
theorem bufferIsNeverWritten : Obligations.BufferIsNeverWritten := by
  intro s t h
  obtain ⟨hmem, hlen⟩ := step_keeps_buffer h
  exact ⟨hmem, hlen, memRead_congr hmem hlen⟩

/-! ## What a fetch depends on -/

/-- A read of `n` bytes depends on those bytes alone. -/
theorem memReads_congr {s t : State} {a n : Nat} (h : ∀ k, k < n → memRead t (a + k) = memRead s (a + k)) :
    memReads t a n = memReads s a n := by
  induction n generalizing a with
  | zero => rfl
  | succ n ih =>
      have hhead : memRead t a = memRead s a := h 0 n.succ_pos
      have htail : memReads t (a + 1) n = memReads s (a + 1) n := ih fun k hk => by
        rw [show a + 1 + k = a + (k + 1) by omega]
        exact h (k + 1) (Nat.succ_lt_succ hk)
      simp only [memReads, hhead, htail]

/-- With all its operand bytes there, the one error an opcode can raise is an illegal register (R81, R193). -/
theorem decodeOperands_raise_complete {o : Op} {bs : List Byte} {e : FatalError} (hlen : bs.length = o.len - 1)
    (h : decodeOperands o bs = .raise e) : ∃ role v, e = .illegalRegister o.code role v := by
  have hshape := decodeOperands_recordShape hlen h
  have hrec := decodeOperands_raise h
  cases e with
  | unrecognizedOpcode op =>
      cases hrec
      simp [recordShape, opOfByte_code] at hshape
  | truncated op required remaining =>
      obtain ⟨rfl, _, rfl⟩ := hrec
      have hpos := o.len_range.1
      simp [recordShape, opOfByte_code] at hshape
      omega
  | illegalRegister op role v =>
      cases hrec
      exact ⟨role, v, rfl⟩

/-- A fetch raises an error at the opcode byte, before any operand byte is read, or an illegal register (R81). -/
theorem fetch_raise_cases {s : State} {e : FatalError} (h : fetch s = .ok (.raise e)) :
    ∃ b, memRead s s.pc = .ok b ∧
      (decodeOpcode b (s.bufLen - s.pc) = .error e ∨
        ∃ (o : Op) (role : RegRole) (v : Byte), b = o.code ∧ e = .illegalRegister o.code role v) := by
  obtain ⟨b, hb, ⟨e', he', heq⟩ | ⟨o, bs, ho, hbs, heq⟩⟩ := fetch_ok_iff.mp h
  · cases heq
    exact ⟨b, hb, .inl he'⟩
  · obtain ⟨role, v, he⟩ := decodeOperands_raise_complete (memReads_ok_iff.mp hbs).1 heq.symm
    exact ⟨b, hb, .inr ⟨o, role, v, (decodeOpcode_ok_iff.mp ho).1, he⟩⟩

/-- An illegal-register error names the opcode at the pc (R193). -/
theorem fetch_illegalRegister_opcode {s : State} {op v : Byte} {role : RegRole}
    (h : fetch s = .ok (.raise (.illegalRegister op role v))) :
    ∃ o : Op, op = o.code ∧ memRead s s.pc = .ok o.code := by
  obtain ⟨b, hb, herr | ⟨o, _, _, rfl, he⟩⟩ := fetch_raise_cases h
  · obtain ⟨he, _⟩ | ⟨_, _, _, he⟩ := decodeOpcode_error_cases herr <;> cases he
  · cases he
    exact ⟨o, rfl, hb⟩

section SamePlace
variable {s t : State} (hpc : t.pc = s.pc) (hlen : t.bufLen = s.bufLen)
include hpc hlen

/-- R52, R83: at one pc and one L, a fetch depends on the bytes of the instruction alone. -/
theorem fetch_congr_of_instruction_bytes {o : Op} (hop : memRead s s.pc = .ok o.code)
    (hsame : ∀ k, k < o.len → memRead t (s.pc + k) = memRead s (s.pc + k)) : fetch t = fetch s := by
  have hop' : memRead t s.pc = .ok o.code := (hsame 0 o.len_range.1).trans hop
  have hoperands : memReads t (s.pc + 1) (o.len - 1) = memReads s (s.pc + 1) (o.len - 1) :=
    memReads_congr fun k hk => by
      rw [show s.pc + 1 + k = s.pc + (k + 1) by omega]
      exact hsame (k + 1) (by omega)
  simp only [fetch, hpc, hlen, hop, hop']
  cases hd : decodeOpcode o.code (s.bufLen - s.pc) with
  | error e => rfl
  | ok p =>
      have hp : o = p := Op.code_injective (decodeOpcode_ok_iff.mp hd).1
      simp only [← hp, hoperands]

/-- R52, R192: at one pc and one L, an unrecognized or truncated instruction is told by its opcode byte alone. -/
theorem fetch_raise_of_same_opcode {e : FatalError} (hop : memRead t s.pc = memRead s s.pc)
    (hkind : ∀ op role v, e ≠ .illegalRegister op role v) (h : fetch s = .ok (.raise e)) :
    fetch t = .ok (.raise e) := by
  obtain ⟨b, hb, herr | ⟨o, role, v, _, he⟩⟩ := fetch_raise_cases h
  · refine fetch_ok_iff.mpr ⟨b, ?_, .inl ⟨e, ?_, rfl⟩⟩
    · rw [hpc, hop, hb]
    · rw [hpc, hlen, herr]
  · exact absurd he (hkind _ _ _)

end SamePlace

/-- Settles O43: what is decoded from operand bytes by `fetch_congr_of_instruction_bytes`, and the two errors raised
before them by `fetch_raise_of_same_opcode`. -/
theorem fetchReadsOnlyTheInstruction : Obligations.FetchReadsOnlyTheInstruction := by
  intro s t hpc hlen hop
  refine ⟨fun i h hsame => ?_, fun op h => ?_, fun op n k h => ?_, fun op role v h => ?_⟩
  · rw [fetch_congr_of_instruction_bytes hpc hlen (fetch_instr_inside h).1 hsame, h]
  · exact fetch_raise_of_same_opcode hpc hlen hop (by simp) h
  · exact fetch_raise_of_same_opcode hpc hlen hop (by simp) h
  · obtain ⟨o, rfl, hopcode⟩ := fetch_illegalRegister_opcode h
    refine ⟨o, opOfByte_code o, fun hsame => ?_⟩
    rw [fetch_congr_of_instruction_bytes hpc hlen hopcode hsame, h]

/-! ## Immediates in the stream -/

/-- A word is its low byte and 256 times its high byte (R54). -/
theorem toNat_eq_immLo_add_immHi (w : Word) : w.toNat = (immLo w).toNat + 256 * (immHi w).toNat := by
  have hw := w.isLt
  have hlo : (immLo w).toNat = w.toNat % 256 := by simp [immLo]
  have hhi : (immHi w).toNat = w.toNat / 256 % 256 := by simp [immHi, Nat.shiftRight_eq_div_pow]
  omega

/-- Decoding gives an instruction only from its own opcode byte and its operand bytes (R81). -/
theorem decode_instr_operands {b : Byte} {rest : List Byte} {i : Instr} (h : decode b rest = .instr i) :
    decodeOperands i.op rest = .instr i := by
  unfold decode at h
  split at h
  · cases h
  · rw [decodeOperands_op h]
    exact h

/-- An instruction of format I carries the immediate of its bytes 1 and 2 and the register of its byte 3 (R71). -/
theorem decodeOperands_immediate {o : Op} {bs : List Byte} {i : Instr} (hfmt : o.format = .immediate)
    (h : decodeOperands o bs = .instr i) :
    ∃ lo hi r tail, bs = lo :: hi :: r :: tail ∧
      i ∈ [Instr.movi, .addi, .subi, .muli, .imuli, .divi, .idivi].map
        fun mk => mk (assembleImm lo hi) (r.setWidth 4) := by
  cases o with
  | exit | movr | addr | subr | mulr | imulr | divr | idivr => cases hfmt
  | movi | addi | subi | muli | imuli | divi | idivi =>
      obtain ⟨lo, hi, r, tail, hbytes, _, rfl⟩ := decodeImmForm_instr h
      exact ⟨lo, hi, r, tail, hbytes, by simp⟩

/-- Settles O4, from the two byte halves of an assembled immediate and `decodeOperands_immediate`. -/
theorem immediatesAreLittleEndian : Obligations.ImmediatesAreLittleEndian := by
  refine ⟨fun lo hi => ⟨?_, immLo_assembleImm lo hi, immHi_assembleImm lo hi⟩, by decide,
    fun b lo hi r tail i h hfmt => ?_⟩
  · rw [toNat_eq_immLo_add_immHi, immLo_assembleImm, immHi_assembleImm]
  · obtain ⟨_, _, _, _, hbytes, hmem⟩ := decodeOperands_immediate hfmt (decode_instr_operands h)
    cases hbytes
    exact hmem

end Sys2Proof.Machine
end

section
/-! SUPPORT. The encoding (30_encoding.md): the decoder and the encoder are inverse to each other, the error the decoder
raises is the first in the order of R195, and the decoder block looks at no byte beyond `rem`. -/

namespace Sys2Proof.Machine

/-! ## Words written out from the format tables -/

/-- Settles O1, by running the decoder on each written-out word. -/
theorem wordsOfEveryFamilyDecode : Obligations.WordsOfEveryFamilyDecode := by
  refine ⟨?_, ?_, ?_, ?_, ?_, ?_, ?_, ?_, ?_⟩ <;> decide

/-! ## The decoder on the bytes of an instruction -/

/-- Steps 4 and 5 of R81 raise the truncation themselves when operand bytes are missing. -/
theorem decodeOperands_short {o : Op} {bs : List Byte} (h : 1 + bs.length < o.len) :
    decodeOperands o bs = truncatedAfter o bs.length := by
  cases o with
  | exit => exact absurd h (by simp [Op.len, Op.format, Format.length])
  | movi | addi | subi | muli | imuli | divi | idivi =>
      match bs, h with
      | [], _ | [_], _ | [_, _], _ => rfl
      | _ :: _ :: _ :: _, h => simp [Op.len, Op.format, Format.length] at h; omega
  | movr | addr | subr | mulr | imulr | divr | idivr =>
      match bs, h with
      | [], _ | [_], _ => rfl
      | _ :: _ :: _, h => simp [Op.len, Op.format, Format.length] at h; omega

/-- At an opcode byte, decoding is decoding its operands (R81). -/
theorem decode_code (o : Op) (bs : List Byte) : decode o.code bs = decodeOperands o bs := by
  unfold decode decodeOpcode
  rw [opOfByte_code]
  by_cases h : 1 + bs.length < o.len
  · rw [decodeOperands_short h, truncatedAfter]
    simp only [if_pos h]
  · simp only [if_neg h]

/-- At any other byte, decoding stops there (R79). -/
theorem decode_unrecognized {b : Byte} (h : opOfByte b = none) (bs : List Byte) :
    decode b bs = .raise (.unrecognizedOpcode b) := by
  simp only [decode, decodeOpcode, h]

theorem encode_eq_cons (i : Instr) : encode i = i.op.code :: (encode i).tail := by
  cases i <;> rfl

theorem decodeImmForm_encoded (o : Op) (mk : Word → RegIdx → Instr) (imm : Word) {reg : RegIdx}
    (h : legalReg reg = true) (tail : List Byte) :
    decodeImmForm o mk (immLo imm :: immHi imm :: regByte reg :: tail) = .instr (mk imm reg) := by
  rw [decodeImmForm_cons, decodeReg_legal o .sole h, assembleImm_split]

theorem decodeRegForm_encoded (o : Op) (mk : RegIdx → RegIdx → Instr) {src dst : RegIdx}
    (hs : legalReg src = true) (hd : legalReg dst = true) (tail : List Byte) :
    decodeRegForm o mk (regByte src :: regByte dst :: tail) = .instr (mk src dst) := by
  rw [decodeRegForm_cons, decodeReg_legal o .source hs, decodeReg_legal o .destination hd]

/-- The operand bytes of a well-formed instruction decode to it, whatever follows them. -/
theorem decodeOperands_encode {i : Instr} (hw : i.wf = true) (tail : List Byte) :
    decodeOperands i.op ((encode i).tail ++ tail) = .instr i := by
  cases i with
  | exit => rfl
  | movi imm _ | addi imm _ | subi imm _ | muli imm _ | imuli imm _ | divi imm _ | idivi imm _ =>
      exact decodeImmForm_encoded _ _ imm hw tail
  | movr | addr | subr | mulr | imulr | divr | idivr =>
      obtain ⟨hs, hd⟩ := Bool.and_eq_true_iff.mp hw
      exact decodeRegForm_encoded _ _ hs hd tail

/-- Settles O2: the first byte selects the opcode, and the others decode by `decodeOperands_encode`. -/
theorem decodeOfEncodeIsTheInstruction : Obligations.DecodeOfEncodeIsTheInstruction := by
  intro i tail hw
  rw [encode_eq_cons i, List.cons_append, decodeBytes, decode_code, decodeOperands_encode hw]

/-! ## The bytes of a decoded instruction -/

/-- The bytes an instruction was decoded from are its encoding: no instruction has two spellings (R82). -/
theorem take_eq_encode_of_decodeOperands {o : Op} {bs : List Byte} {i : Instr} (h : decodeOperands o bs = .instr i) :
    (o.code :: bs).take o.len = encode i := by
  have spelled : ∀ {r : Byte}, r.toNat < 10 → regByte (r.setWidth 4) = r := fun hr => (regByte_setWidth hr).2
  cases o with
  | exit => cases h; rfl
  | movi | addi | subi | muli | imuli | divi | idivi =>
      obtain ⟨lo, hi, r, tail, rfl, hr, rfl⟩ := decodeImmForm_instr h
      simp only [encode, encodeImmForm, immLo_assembleImm, immHi_assembleImm, spelled hr]
      rfl
  | movr | addr | subr | mulr | imulr | divr | idivr =>
      obtain ⟨s, d, tail, rfl, hs, hd, rfl⟩ := decodeRegForm_instr h
      simp only [encode, encodeRegForm, spelled hs, spelled hd]
      rfl

/-- Decoding gives an instruction only where its opcode stands and all its bytes are there (R81). -/
theorem decode_instr_complete {b : Byte} {rest : List Byte} {i : Instr} (h : decode b rest = .instr i) :
    b = i.op.code ∧ i.len ≤ 1 + rest.length := by
  unfold decode at h
  split at h
  · cases h
  · rename_i o ho
    have hop : i.op = o := decodeOperands_op h
    subst hop
    exact decodeOpcode_ok_iff.mp ho

/-- Settles O3, by `decode_wf`, `decode_instr_complete` and `take_eq_encode_of_decodeOperands`. -/
theorem decodedInstructionIsWellFormedAndEncodesBack : Obligations.DecodedInstructionIsWellFormedAndEncodesBack := by
  intro b rest i h
  obtain ⟨rfl, hlen⟩ := decode_instr_complete h
  exact ⟨decode_wf h, hlen, take_eq_encode_of_decodeOperands (decode_instr_operands h)⟩

/-! ## The error the decoder raises -/

/-- A register byte raises for itself when illegal, and otherwise what follows it may raise (R193). -/
theorem decodeReg_raise_iff {o : Op} {role : RegRole} {r : Byte} {k : RegIdx → Decoded} {e : FatalError} :
    decodeReg o role r k = .raise e ↔
      (10 ≤ r.toNat ∧ e = .illegalRegister o.code role r) ∨ (r.toNat ≤ 9 ∧ k (r.setWidth 4) = .raise e) := by
  obtain ⟨hr, heq⟩ | ⟨hr, heq⟩ := decodeReg_cases o role r k
  · have h10 : ¬ 10 ≤ r.toNat := by omega
    have h9 : r.toNat ≤ 9 := by omega
    simp [heq, h10, h9]
  · have h9 : ¬ r.toNat ≤ 9 := by omega
    simp [heq, hr, h9, eq_comm]

/-- The error that comes first in the order of R195 once the opcode is recognized: truncation, then `reg` or `src`, then
`dst` (D7, log 6). -/
def FirstOperandError (o : Op) (bs : List Byte) (e : FatalError) : Prop :=
  (1 + bs.length < o.len ∧ e = .truncated o.code o.len (1 + bs.length)) ∨
  (o.format = .immediate ∧ ∃ lo hi r tail, bs = lo :: hi :: r :: tail ∧ 10 ≤ r.toNat ∧
      e = .illegalRegister o.code .sole r) ∨
  (o.format = .register ∧ ∃ s d tail, bs = s :: d :: tail ∧
      ((10 ≤ s.toNat ∧ e = .illegalRegister o.code .source s) ∨
       (s.toNat ≤ 9 ∧ 10 ≤ d.toNat ∧ e = .illegalRegister o.code .destination d)))

/-- Format I: with fewer than three operand bytes the truncation, else the register byte's error (R195). -/
theorem decodeImmForm_raise_iff {o : Op} {mk : Word → RegIdx → Instr} {bs : List Byte} {e : FatalError}
    (hfmt : o.format = .immediate) : decodeImmForm o mk bs = .raise e ↔ FirstOperandError o bs e := by
  have hlen : o.len = 4 := by rw [Op.len, hfmt]; rfl
  match bs with
  | lo :: hi :: r :: tail =>
      have hin : ¬ 1 + (tail.length + 1 + 1 + 1) < 4 := by omega
      simp [FirstOperandError, decodeImmForm_cons, decodeReg_raise_iff, hlen, hfmt, hin]
  | [] | [_] | [_, _] => simp [FirstOperandError, decodeImmForm, truncatedAfter, hlen, hfmt, eq_comm]

/-- Format R: with fewer than two operand bytes the truncation, else the source's error before the destination's
(R195). -/
theorem decodeRegForm_raise_iff {o : Op} {mk : RegIdx → RegIdx → Instr} {bs : List Byte} {e : FatalError}
    (hfmt : o.format = .register) : decodeRegForm o mk bs = .raise e ↔ FirstOperandError o bs e := by
  have hlen : o.len = 3 := by rw [Op.len, hfmt]; rfl
  match bs with
  | s :: d :: tail =>
      have hin : ¬ 1 + (tail.length + 1 + 1) < 3 := by omega
      simp [FirstOperandError, decodeRegForm_cons, decodeReg_raise_iff, hlen, hfmt, hin]
  | [] | [_] => simp [FirstOperandError, decodeRegForm, truncatedAfter, hlen, hfmt, eq_comm]

theorem decodeOperands_raise_iff {o : Op} {bs : List Byte} {e : FatalError} :
    decodeOperands o bs = .raise e ↔ FirstOperandError o bs e := by
  cases o with
  | exit => simp [FirstOperandError, decodeOperands, Op.len, Op.format, Format.length]
  | movi | addi | subi | muli | imuli | divi | idivi => exact decodeImmForm_raise_iff rfl
  | movr | addr | subr | mulr | imulr | divr | idivr => exact decodeRegForm_raise_iff rfl

/-- Settles O6: an unrecognized opcode byte raises at once, and at any other `decodeOperands_raise_iff` says which error
comes first. -/
theorem decoderRaisesTheFirstErrorInOrder : Obligations.DecoderRaisesTheFirstErrorInOrder := by
  intro b rest e
  cases hb : opOfByte b with
  | none => simp [decode_unrecognized hb, eq_comm]
  | some o =>
      obtain rfl := opOfByte_eq_some_iff.mp hb
      simp only [decode_code, decodeOperands_raise_iff, FirstOperandError, reduceCtorEq, false_and, false_or,
        Option.some.injEq, exists_eq_left']

/-! ## The opcode bytes -/

/-- The byte values of R79. -/
theorem opOfByte_eq_none_iff_range {b : Byte} :
    opOfByte b = none ↔ b.toNat ≤ 19 ∨ (22 ≤ b.toNat ∧ b.toNat ≤ 29) ∨ (42 ≤ b.toNat ∧ b.toNat ≤ 254) := by
  rw [opOfByte_eq_none_iff]
  constructor
  · intro h
    have hne : ∀ o ∈ allOps, b.toNat ≠ o.code.toNat := fun o _ heq => h o (BitVec.eq_of_toNat_eq heq)
    simp [allOps, Op.code, Config.exitOpcode] at hne
    omega
  · rintro h o rfl
    revert h
    cases o <;> decide

/-- Settles O5: of the errors in order only the first is an unrecognized opcode, and it is raised at the bytes of
`opOfByte_eq_none_iff_range`. -/
theorem theOtherOpcodeBytesAreUnrecognized : Obligations.TheOtherOpcodeBytesAreUnrecognized := by
  intro b rest
  rw [← opOfByte_eq_none_iff_range, decoderRaisesTheFirstErrorInOrder b rest]
  simp

/-! ## The decoder block and `rem` -/

/-- With 1 to 4 bytes inside B, the decoder block decodes just those (R84). -/
theorem decoderBlock_eq_decodedPorts (ib0 ib1 ib2 ib3 : Byte) {rem : BitVec 3} (h1 : 1 ≤ rem.toNat)
    (h4 : rem.toNat ≤ 4) :
    decoderBlock ib0 ib1 ib2 ib3 rem = some (decodedPorts (decode ib0 ([ib1, ib2, ib3].take (rem.toNat - 1)))) := by
  obtain ⟨m, hm⟩ : ∃ m, rem.toNat = m + 1 := ⟨rem.toNat - 1, by omega⟩
  have hle : ¬ 4 < m + 1 := by omega
  simp only [decoderBlock, hm, List.take_succ_cons, decodeBytes, if_neg hle, Nat.add_sub_cancel]
  cases decode ib0 ([ib1, ib2, ib3].take m) <;> rfl

/-- Inputs that agree below `n` show the same operand bytes. -/
theorem take_inputs_congr {a1 a2 a3 b1 b2 b3 : Byte} {n : Nat} (h1 : 2 ≤ n → a1 = b1) (h2 : 3 ≤ n → a2 = b2)
    (h3 : 4 ≤ n → a3 = b3) : [a1, a2, a3].take (n - 1) = [b1, b2, b3].take (n - 1) := by
  match n with
  | 0 | 1 => rfl
  | 2 => rw [h1 (by omega)]; rfl
  | 3 => rw [h1 (by omega), h2 (by omega)]; rfl
  | n + 4 => rw [h1 (by omega), h2 (by omega), h3 (by omega)]

/-- Settles O8, by `decoderBlock_eq_decodedPorts` on bytes that agree where `rem` shows them to lie inside B. -/
theorem decoderBlockIgnoresBytesBeyondRem : Obligations.DecoderBlockIgnoresBytesBeyondRem := by
  intro ib0 ib1 ib2 ib3 jb1 jb2 jb3 rem hlo hhi h1 h2 h3
  rw [decoderBlock_eq_decodedPorts ib0 ib1 ib2 ib3 hlo hhi, decoderBlock_eq_decodedPorts ib0 jb1 jb2 jb3 hlo hhi,
    take_inputs_congr h1 h2 h3]
  exact ⟨rfl, rfl⟩

end Sys2Proof.Machine
end

section
/-! SUPPORT. The assembler spelling (R86): reading back what was printed, piece by piece: tokens and spaces, numbers,
names, and a whole line. -/

namespace Sys2Proof.Machine

/-! ## Tokens -/

/-- A piece of a line that neither spaces nor the comma can cut: a mnemonic, a register name, a number. -/
structure IsToken (cs : List Char) : Prop where
  nonempty : cs ≠ []
  noSpace : ' ' ∉ cs
  noComma : ',' ∉ cs

/-- A text is cut at the first `c` in it. -/
theorem splitAtChar_append {c : Char} {xs : List Char} (h : c ∉ xs) (ys : List Char) :
    splitAtChar c (xs ++ c :: ys) = (xs, some ys) := by
  induction xs with
  | nil => simp [splitAtChar]
  | cons x xs ih =>
      obtain ⟨hx, hxs⟩ : c ≠ x ∧ c ∉ xs := by simpa using h
      simp [splitAtChar, Ne.symm hx, ih hxs]

theorem dropSpaces_of_head {cs : List Char} (h : cs.head? ≠ some ' ') : dropSpaces cs = cs := by
  cases cs with
  | nil => rfl
  | cons c cs =>
      have hc : c ≠ ' ' := by simpa using h
      simp [dropSpaces, hc]

/-- Trimming changes nothing between two characters that are no spaces. -/
theorem trimSpaces_of_ends {cs : List Char} (hfirst : cs.head? ≠ some ' ') (hlast : cs.getLast? ≠ some ' ') :
    trimSpaces cs = cs := by
  have hrev : cs.reverse.head? ≠ some ' ' := by rwa [List.head?_reverse]
  rw [trimSpaces, dropSpaces_of_head hfirst, dropSpaces_of_head hrev, List.reverse_reverse]

theorem IsToken.head?_ne_space {cs : List Char} (h : IsToken cs) : cs.head? ≠ some ' ' :=
  fun he => h.noSpace (List.mem_of_head? he)

theorem IsToken.getLast?_ne_space {cs : List Char} (h : IsToken cs) : cs.getLast? ≠ some ' ' :=
  fun he => h.noSpace (List.mem_of_getLast? he)

theorem IsToken.trimSpaces_eq {cs : List Char} (h : IsToken cs) : trimSpaces cs = cs :=
  trimSpaces_of_ends h.head?_ne_space h.getLast?_ne_space

/-- The space printed before the second operand is trimmed away. -/
theorem IsToken.trimSpaces_space_cons {cs : List Char} (h : IsToken cs) : trimSpaces (' ' :: cs) = cs :=
  h.trimSpaces_eq

/-- A text that begins and ends with a token has no space to trim. -/
theorem trimSpaces_between {first last : List Char} (hf : IsToken first) (hl : IsToken last) (mid : List Char) :
    trimSpaces (first ++ (mid ++ last)) = first ++ (mid ++ last) := by
  apply trimSpaces_of_ends
  · rw [List.head?_append_of_ne_nil _ hf.nonempty]
    exact hf.head?_ne_space
  · rw [← List.append_assoc, List.getLast?_append_of_ne_nil _ hl.nonempty]
    exact hl.getLast?_ne_space

/-! ## Numbers -/

/-- A digit is no character that is not one: no space, comma, sign or `x`. -/
theorem ne_of_isDigit {c d : Char} (hc : c.isDigit = true) (hd : d.isDigit = false) : c ≠ d := by
  rintro rfl
  rw [hc] at hd
  cases hd

theorem digitValue_of_isDigit {c : Char} (h : c.isDigit = true) :
    digitValue 10 c = some (c.toNat - '0'.toNat) := by
  have hr : '0' ≤ c ∧ c ≤ '9' := by simpa [Char.isDigit, Char.le_def] using h
  have h9 : c.toNat ≤ '9'.toNat := UInt32.le_iff_toNat_le.mp hr.2
  have hlt : c.toNat - '0'.toNat < 10 := by
    have : '9'.toNat = 57 := rfl
    have : '0'.toNat = 48 := rfl
    omega
  simp only [digitValue, if_pos hr, if_pos hlt]

/-- On decimal digits the reader computes the library's value of a row of digits. -/
theorem readDigits_of_isDigit {cs : List Char} (h : ∀ c ∈ cs, c.isDigit = true) (acc : Nat) :
    readDigits 10 acc cs = some (Nat.ofDigitChars 10 cs acc) := by
  induction cs generalizing acc with
  | nil => rfl
  | cons c cs ih =>
      obtain ⟨hc, hcs⟩ := List.forall_mem_cons.mp h
      simp only [readDigits, digitValue_of_isDigit hc, ih hcs, Nat.ofDigitChars_cons, Nat.mul_comm]

/-- Without a sign and without an `x`, an immediate is read as a decimal number. -/
theorem readImm_of_isDigit {cs : List Char} (h : ∀ c ∈ cs, c.isDigit = true) :
    readImm cs = (readNat 10 cs).bind fun n => if n ≤ 65535 then some (BitVec.ofNat 16 n) else none := by
  unfold readImm
  split
  · exact absurd rfl (ne_of_isDigit (h '-' (by simp)) rfl)
  · exact absurd rfl (ne_of_isDigit (h 'x' (by simp)) rfl)
  · rfl

theorem isDigit_of_mem_showImm {w : Word} {c : Char} (h : c ∈ showImm w) : c.isDigit = true :=
  Nat.isDigit_of_mem_toDigits (by decide) (by decide) h

theorem showImm_isToken (w : Word) : IsToken (showImm w) where
  nonempty := Nat.toDigits_ne_nil
  noSpace h := ne_of_isDigit (isDigit_of_mem_showImm h) rfl rfl
  noComma h := ne_of_isDigit (isDigit_of_mem_showImm h) rfl rfl

/-- Every immediate is read back from its decimal digits. -/
theorem readImm_showImm (w : Word) : readImm (showImm w) = some w := by
  have hdigits : ∀ c ∈ showImm w, c.isDigit = true := fun _ => isDigit_of_mem_showImm
  have hne : (showImm w).isEmpty = false := by simp [(showImm_isToken w).nonempty]
  have hval : Nat.ofDigitChars 10 (showImm w) 0 = w.toNat := Nat.ofDigitChars_ten_toDigits
  have hle : w.toNat ≤ 65535 := Nat.le_of_lt_succ w.isLt
  rw [readImm_of_isDigit hdigits, readNat, hne, if_neg Bool.false_ne_true, readDigits_of_isDigit hdigits, hval]
  simp [hle]

/-! ## Names -/

theorem readMnemonic_mnemonicOf (o : Op) : readMnemonic (mnemonicOf o) = some o := by
  cases o <;> decide

theorem mnemonicOf_isToken (o : Op) : IsToken (mnemonicOf o) := by
  cases o <;> exact ⟨by decide, by decide, by decide⟩

/-- Each row of the table of names is read both ways, and its name is a token (R21). -/
theorem regNames_spell : ∀ p ∈ regNames,
    regName p.2 = some p.1 ∧ readReg p.1 = some p.2 ∧ p.1 ≠ [] ∧ ' ' ∉ p.1 ∧ ',' ∉ p.1 := by decide

/-- Every operand register stands in the table of names. -/
theorem exists_regNames_of_legal : ∀ i : RegIdx, legalReg i = true → ∃ p ∈ regNames, p.2 = i := by decide

/-- Every operand register has a name, and the name is read as it (R21, R86). -/
theorem regName_legal {i : RegIdx} (h : legalReg i = true) :
    ∃ name, regName i = some name ∧ IsToken name ∧ readReg name = some i := by
  obtain ⟨p, hp, rfl⟩ := exists_regNames_of_legal i h
  obtain ⟨hname, hread, hne, hspace, hcomma⟩ := regNames_spell p hp
  exact ⟨p.1, hname, ⟨hne, hspace, hcomma⟩, hread⟩

/-! ## Lines -/

/-- What a line's operands spell after its mnemonic. -/
def readOperands (o : Op) (operands : List Char) : Option Instr :=
  match o with
  | .movi => readImmForm .movi operands
  | .movr => readRegForm .movr operands
  | .addi => readImmForm .addi operands
  | .addr => readRegForm .addr operands
  | .subi => readImmForm .subi operands
  | .subr => readRegForm .subr operands
  | .muli => readImmForm .muli operands
  | .mulr => readRegForm .mulr operands
  | .imuli => readImmForm .imuli operands
  | .imulr => readRegForm .imulr operands
  | .divi => readImmForm .divi operands
  | .divr => readRegForm .divr operands
  | .idivi => readImmForm .idivi operands
  | .idivr => readRegForm .idivr operands
  | .exit => if operands.isEmpty then some .exit else none

/-- The operands `x, y` as they are printed. -/
def operandText (x y : List Char) : List Char := x ++ ',' :: ' ' :: y

/-- A printed line is its mnemonic, a space, and two operands; reading it reads the operands. -/
theorem readAsm_line (o : Op) (x : List Char) {y : List Char} (hy : IsToken y) :
    readAsm (mnemonicOf o ++ ' ' :: operandText x y) = readOperands o (operandText x y) := by
  have hm := mnemonicOf_isToken o
  have htrim : trimSpaces (mnemonicOf o ++ ' ' :: operandText x y) = mnemonicOf o ++ ' ' :: operandText x y := by
    have h := trimSpaces_between hm hy (' ' :: x ++ [',', ' '])
    simpa [operandText] using h
  unfold readAsm
  rw [htrim, splitAtChar_append hm.noSpace]
  simp only [readMnemonic_mnemonicOf, Option.getD_some]
  cases o <;> rfl

/-- Operands `imm, reg` are read back. -/
theorem readImmForm_operandText (mk : Word → RegIdx → Instr) (imm : Word) {reg : RegIdx} {name : List Char}
    (hname : IsToken name) (hread : readReg name = some reg) :
    readImmForm mk (operandText (showImm imm) name) = some (mk imm reg) := by
  have himm := showImm_isToken imm
  simp [readImmForm, operandText, splitAtChar_append himm.noComma, himm.trimSpaces_eq, hname.trimSpaces_space_cons,
    readImm_showImm, hread]

/-- Operands `src, dst` are read back. -/
theorem readRegForm_operandText (mk : RegIdx → RegIdx → Instr) {src dst : RegIdx} {x y : List Char}
    (hx : IsToken x) (hsrc : readReg x = some src) (hy : IsToken y) (hdst : readReg y = some dst) :
    readRegForm mk (operandText x y) = some (mk src dst) := by
  simp [readRegForm, operandText, splitAtChar_append hx.noComma, hx.trimSpaces_eq, hy.trimSpaces_space_cons, hsrc, hdst]

/-- The printed line of format I is read back, for every opcode `o` whose operands `readImmForm mk` reads. -/
theorem showImmForm_reads {o : Op} {mk : Word → RegIdx → Instr} (hform : readOperands o = readImmForm mk)
    (imm : Word) {reg : RegIdx} (h : legalReg reg = true) :
    ∃ cs, showImmForm o imm reg = some cs ∧ readAsm cs = some (mk imm reg) := by
  obtain ⟨name, hname, htok, hread⟩ := regName_legal h
  refine ⟨mnemonicOf o ++ ' ' :: operandText (showImm imm) name, by simp [showImmForm, hname, operandText], ?_⟩
  rw [readAsm_line o _ htok, hform, readImmForm_operandText mk imm htok hread]

/-- The printed line of format R is read back, for every opcode `o` whose operands `readRegForm mk` reads. -/
theorem showRegForm_reads {o : Op} {mk : RegIdx → RegIdx → Instr} (hform : readOperands o = readRegForm mk)
    {src dst : RegIdx} (hs : legalReg src = true) (hd : legalReg dst = true) :
    ∃ cs, showRegForm o src dst = some cs ∧ readAsm cs = some (mk src dst) := by
  obtain ⟨x, hx, hxtok, hxread⟩ := regName_legal hs
  obtain ⟨y, hy, hytok, hyread⟩ := regName_legal hd
  refine ⟨mnemonicOf o ++ ' ' :: operandText x y, by simp [showRegForm, hx, hy, operandText], ?_⟩
  rw [readAsm_line o _ hytok, hform, readRegForm_operandText mk hxtok hxread hytok hyread]

/-- Settles O9, by `showImmForm_reads` and `showRegForm_reads`; EXIT is its mnemonic alone. -/
theorem assemblerSpellingReadsBack : Obligations.AssemblerSpellingReadsBack := by
  intro i hw
  cases i with
  | exit => exact ⟨mnemonicOf .exit, rfl, by decide⟩
  | movi imm _ | addi imm _ | subi imm _ | muli imm _ | imuli imm _ | divi imm _ | idivi imm _ =>
      exact showImmForm_reads rfl imm hw
  | movr | addr | subr | mulr | imulr | divr | idivr =>
      obtain ⟨hs, hd⟩ := Bool.and_eq_true_iff.mp hw
      exact showRegForm_reads rfl hs hd

end Sys2Proof.Machine
end

section
/-! SUPPORT. The instruction forms by value (R71, R72) for any opcode of format I or R, the frame an instruction that
advances the pc leaves, and the move instructions (40_move.md). -/

namespace Sys2Proof.Machine

/-! ## The bytes of an instruction by value -/

theorem immLo_eq_ofNat (w : Word) : immLo w = BitVec.ofNat 8 w.toNat := by
  apply BitVec.eq_of_toNat_eq
  simp [immLo]

theorem immHi_eq_ofNat (w : Word) : immHi w = BitVec.ofNat 8 (w.toNat / 256) := by
  apply BitVec.eq_of_toNat_eq
  simp [immHi, Nat.shiftRight_eq_div_pow]

theorem regByte_eq_ofNat (i : RegIdx) : regByte i = BitVec.ofNat 8 i.toNat :=
  (BitVec.ofNat_toNat 8 i).symm

/-- R75: the immediate is the little-endian number of its two bytes. -/
theorem assembleImm_eq_ofNat (lo hi : Byte) :
    assembleImm lo hi = BitVec.ofNat 16 (lo.toNat + 256 * hi.toNat) := by
  have hval := toNat_eq_immLo_add_immHi (assembleImm lo hi)
  rw [immLo_assembleImm, immHi_assembleImm] at hval
  rw [← hval, BitVec.ofNat_toNat, BitVec.setWidth_eq]

/-! ## Register bytes in and out of range -/

theorem decodeReg_of_le_nine (o : Op) (role : RegRole) {r : Byte} (h : r.toNat ≤ 9) (k : RegIdx → Decoded) :
    decodeReg o role r k = k (BitVec.ofNat 4 r.toNat) := by
  have hlt : r.toNat < Config.flagsIndex := Nat.lt_succ_of_le h
  rw [decodeReg, if_pos hlt, BitVec.ofNat_toNat]

theorem decodeReg_of_ten_le (o : Op) (role : RegRole) {r : Byte} (h : 10 ≤ r.toNat) (k : RegIdx → Decoded) :
    decodeReg o role r k = .raise (.illegalRegister o.code role r) := by
  have hge : ¬ r.toNat < Config.flagsIndex := Nat.not_lt.mpr h
  rw [decodeReg, if_neg hge]

/-! ## The two operand formats -/

/-- With operand bytes missing, the decoder raises the truncation of the whole instruction (R192). -/
theorem decode_code_short {o : Op} {rest : List Byte} (h : 1 + rest.length < o.len) :
    decode o.code rest = .raise (.truncated o.code o.len (1 + rest.length)) := by
  rw [decode_code, decodeOperands_short h, truncatedAfter]

/-- An opcode of format I that encodes and decodes its operands as `mk` has the form of R71. -/
theorem immFormOf_code {o : Op} {mk : Word → RegIdx → Instr} (hfmt : o.format = .immediate)
    (henc : ∀ imm reg, encode (mk imm reg) = encodeImmForm o imm reg)
    (hdec : decodeOperands o = decodeImmForm o mk) : ImmFormOf o.code mk := by
  have hlen : o.len = 4 := congrArg Format.length hfmt
  refine ⟨fun imm reg => ?_, fun lo hi r tail hr => ?_, fun rest hshort => ?_, fun lo hi r tail hr => ?_⟩
  · rw [henc, encodeImmForm, immLo_eq_ofNat, immHi_eq_ofNat, regByte_eq_ofNat]
  · rw [decode_code, hdec, decodeImmForm_cons, decodeReg_of_le_nine o .sole hr, assembleImm_eq_ofNat]
  · rw [decode_code_short (by omega), hlen]
  · rw [decode_code, hdec, decodeImmForm_cons, decodeReg_of_ten_le o .sole hr]

/-- An opcode of format R that encodes and decodes its operands as `mk` has the form of R72. -/
theorem regFormOf_code {o : Op} {mk : RegIdx → RegIdx → Instr} (hfmt : o.format = .register)
    (henc : ∀ src dst, encode (mk src dst) = encodeRegForm o src dst)
    (hdec : decodeOperands o = decodeRegForm o mk) : RegFormOf o.code mk := by
  have hlen : o.len = 3 := congrArg Format.length hfmt
  have hcons : ∀ s d tail, decode o.code (s :: d :: tail) =
      decodeReg o .source s fun i => decodeReg o .destination d fun j => .instr (mk i j) := fun s d tail => by
    rw [decode_code, hdec, decodeRegForm_cons]
  refine ⟨fun src dst => ?_, fun s d tail hs hd => ?_, fun rest hshort => ?_, fun s d tail hs => ?_,
    fun s d tail hs hd => ?_⟩
  · rw [henc, encodeRegForm, regByte_eq_ofNat, regByte_eq_ofNat]
  · rw [hcons, decodeReg_of_le_nine o .source hs, decodeReg_of_le_nine o .destination hd]
  · rw [decode_code_short (by omega), hlen]
  · rw [hcons, decodeReg_of_ten_le o .source hs]
  · rw [hcons, decodeReg_of_le_nine o .source hs, decodeReg_of_ten_le o .destination hd]

/-! ## The moves -/

/-- Writing registers and advancing the pc leaves everything else. -/
theorem restKept_withRegs_withPc (s : State) (x : RegFile) (n : Nat) : s.RestKept ((s.withRegs x).withPc n) :=
  ⟨rfl, rfl, rfl, rfl, memRead_congr rfl rfl⟩

/-- Settles O10: the form by `immFormOf_code`, the next state by `passImm_legal` and its frame by `exec_slotsKept`. -/
theorem moviLoadsTheImmediate : Obligations.MoviLoadsTheImmediate := by
  refine ⟨immFormOf_code (o := .movi) rfl (fun _ _ => rfl) rfl, fun imm reg s hreg => ?_⟩
  have hlegal := legalReg_of_le_nine hreg
  have hexec : exec (.movi imm reg) s = .next _ := passImm_legal imm s hlegal
  exact ⟨_, hexec, inspectPort_setSlot_same s.regs imm hlegal, rfl, exec_slotsKept hexec,
    restKept_withRegs_withPc ..⟩

/-- Settles O11: the form by `regFormOf_code`, the next state by `passReg_legal` from the value the source holds; the
source is read before the write, so it may be the destination. -/
theorem movrCopiesTheSource : Obligations.MovrCopiesTheSource := by
  refine ⟨regFormOf_code (o := .movr) rfl (fun _ _ => rfl) rfl, fun src dst s hsrc hdst => ?_⟩
  have hd := legalReg_of_le_nine hdst
  obtain ⟨b, hb⟩ := inspectPort_legal s.regs (legalReg_of_le_nine hsrc)
  have hexec : exec (.movr src dst) s = .next _ := passReg_legal (legalReg_of_le_nine hsrc) hd hb
  exact ⟨_, hexec, (inspectPort_setSlot_same s.regs b hd).trans hb.symm, rfl, exec_slotsKept hexec,
    restKept_withRegs_withPc ..⟩

end Sys2Proof.Machine
end

section
/-! SUPPORT. Add, subtract and multiply (41_arith.md): the ALU's results in the library's arithmetic, the signed and the
unsigned product, the next state of an instruction with an ALU result, and SUB after ADD. -/

namespace Sys2Proof.Machine

/-! ## The results of the ALU by value (R121) -/

theorem aluRes_add_toNat (a b : Word) : (aluRes .add a b).toNat = (a.toNat + b.toNat) % 65536 := by
  rw [aluRes, ← Int.natCast_add, trunc16_natCast_toNat]

theorem aluRes_sub_toNat (a b : Word) : ((aluRes .sub a b).toNat : Int) = ((a.toNat : Int) - b.toNat) % 65536 :=
  trunc16_toNat _

theorem aluRes_mul_toNat (a b : Word) : (aluRes .mul a b).toNat = (a.toNat * b.toNat) % 65536 := by
  rw [aluRes, ← Int.natCast_mul, trunc16_natCast_toNat]

theorem aluRes_imul_toNat (a b : Word) : ((aluRes .imul a b).toNat : Int) = (a.toInt * b.toInt) % 65536 := by
  rw [aluRes, trunc16_toNat, signed16_eq_toInt, signed16_eq_toInt]

/-- R130: both readings of an operand are the same number modulo 65536, so their products truncate alike. -/
theorem aluRes_imul_eq_mul (a b : Word) : aluRes .imul a b = aluRes .mul a b := by
  refine trunc16_congr ?_
  rw [Int.mul_emod, signed16_emod, signed16_emod]

/-- R131: subtracting what was added gives the first summand back. -/
theorem aluRes_sub_add (a b : Word) : aluRes .sub (aluRes .add a b) b = a := by
  have hsub := aluRes_sub_toNat (aluRes .add a b) b
  have hadd := aluRes_add_toNat a b
  have ha := a.isLt
  apply BitVec.eq_of_toNat_eq
  omega

theorem aluRes_sub_self (a : Word) : aluRes .sub a a = 0 := by
  rw [aluRes, Int.sub_self]
  rfl

/-! ## The signed and the unsigned product -/

/-- Format I depends on its operation only through the results with this immediate, on any register index. -/
theorem resultImm_congr {o p : ResOp} {imm : Word} (h : ∀ a, aluRes o a imm = aluRes p a imm) (reg : RegIdx)
    (s : State) : resultImm o imm reg s = resultImm p imm reg s := by
  simp only [resultImm, h]

/-- Format R depends on its operation only through the results, on any register indices. -/
theorem resultReg_congr {o p : ResOp} (h : ∀ a b, aluRes o a b = aluRes p a b) (src dst : RegIdx) (s : State) :
    resultReg o src dst s = resultReg p src dst s := by
  simp only [resultReg, h]

/-- Settles O20: the two products agree on every pair of words (`aluRes_imul_eq_mul`). -/
theorem signedAndUnsignedMultiplyAgree : Obligations.SignedAndUnsignedMultiplyAgree :=
  ⟨fun imm reg s => resultImm_congr (fun a => aluRes_imul_eq_mul a imm) reg s,
    fun src dst s => resultReg_congr aluRes_imul_eq_mul src dst s⟩

/-! ## The next state of an instruction with an ALU result -/

/-- Replacing one slot and advancing the pc keeps every other slot. -/
theorem slotsKept_setSlot_withPc (s : State) {i : RegIdx} (v : Word) (n : Nat) (h : legalReg i = true) :
    s.SlotsKept ((s.withRegs (setSlot s.regs i v)).withPc n) [i] :=
  fun _ hj => inspectPort_setSlot_other s.regs v h (List.ne_of_not_mem_cons hj)

/-- R85: format I completes, writes an ALU result with the property `P` to its register and nothing else. -/
theorem resultImm_writes (o : ResOp) (imm : Word) {reg : RegIdx} {s : State} {a : Word} {P : Word → Prop}
    (hreg : reg.toNat ≤ 9) (ha : inspectPort s.regs reg = some a) (hP : P (aluRes o a imm)) :
    ∃ t r, resultImm o imm reg s = .next t ∧ inspectPort t.regs reg = some r ∧
      P r ∧ t.pc = s.pc + 4 ∧ s.SlotsKept t [reg] ∧ s.RestKept t := by
  have h := legalReg_of_le_nine hreg
  exact ⟨_, _, resultImm_legal o imm h ha, inspectPort_setSlot_same s.regs _ h, hP, rfl,
    slotsKept_setSlot_withPc s _ _ h, restKept_withRegs_withPc ..⟩

/-- R85: the same for format R. Both registers are read before the write, so they may be one. -/
theorem resultReg_writes (o : ResOp) {src dst : RegIdx} {s : State} {a b : Word} {P : Word → Prop}
    (hsrc : src.toNat ≤ 9) (hdst : dst.toNat ≤ 9) (ha : inspectPort s.regs dst = some a)
    (hb : inspectPort s.regs src = some b) (hP : P (aluRes o a b)) :
    ∃ t r, resultReg o src dst s = .next t ∧ inspectPort t.regs dst = some r ∧
      P r ∧ t.pc = s.pc + 3 ∧ s.SlotsKept t [dst] ∧ s.RestKept t := by
  have hd := legalReg_of_le_nine hdst
  exact ⟨_, _, resultReg_legal o (legalReg_of_le_nine hsrc) hd ha hb, inspectPort_setSlot_same s.regs _ hd, hP, rfl,
    slotsKept_setSlot_withPc s _ _ hd, restKept_withRegs_withPc ..⟩

/-- Settles O12: `resultImm_writes` with the ALU's sum. -/
theorem addiAddsTheImmediate : Obligations.AddiAddsTheImmediate :=
  ⟨immFormOf_code (o := .addi) rfl (fun _ _ => rfl) rfl,
    fun imm _ _ a hreg ha => resultImm_writes .add imm hreg ha (aluRes_add_toNat a imm)⟩

/-- Settles O13: `resultReg_writes` with the ALU's sum. -/
theorem addrAddsTheSource : Obligations.AddrAddsTheSource :=
  ⟨regFormOf_code (o := .addr) rfl (fun _ _ => rfl) rfl,
    fun _ _ _ a b hsrc hdst ha hb => resultReg_writes .add hsrc hdst ha hb (aluRes_add_toNat a b)⟩

/-- Settles O14: `resultImm_writes` with the ALU's difference. -/
theorem subiSubtractsTheImmediate : Obligations.SubiSubtractsTheImmediate :=
  ⟨immFormOf_code (o := .subi) rfl (fun _ _ => rfl) rfl,
    fun imm _ _ a hreg ha => resultImm_writes .sub imm hreg ha (aluRes_sub_toNat a imm)⟩

/-- Settles O15: `resultReg_writes` with the ALU's difference. -/
theorem subrSubtractsTheSource : Obligations.SubrSubtractsTheSource :=
  ⟨regFormOf_code (o := .subr) rfl (fun _ _ => rfl) rfl,
    fun _ _ _ a b hsrc hdst ha hb => resultReg_writes .sub hsrc hdst ha hb (aluRes_sub_toNat a b)⟩

/-- Settles O16: `resultImm_writes` with the ALU's unsigned product. -/
theorem muliMultipliesByTheImmediate : Obligations.MuliMultipliesByTheImmediate :=
  ⟨immFormOf_code (o := .muli) rfl (fun _ _ => rfl) rfl,
    fun imm _ _ a hreg ha => resultImm_writes .mul imm hreg ha (aluRes_mul_toNat a imm)⟩

/-- Settles O17: `resultReg_writes` with the ALU's unsigned product. -/
theorem mulrMultipliesByTheSource : Obligations.MulrMultipliesByTheSource :=
  ⟨regFormOf_code (o := .mulr) rfl (fun _ _ => rfl) rfl,
    fun _ _ _ a b hsrc hdst ha hb => resultReg_writes .mul hsrc hdst ha hb (aluRes_mul_toNat a b)⟩

/-- Settles O18: `resultImm_writes` with the ALU's signed product; MULI goes to the same state by O20. -/
theorem imuliMultipliesSignedByTheImmediate : Obligations.ImuliMultipliesSignedByTheImmediate := by
  refine ⟨immFormOf_code (o := .imuli) rfl (fun _ _ => rfl) rfl, fun imm reg s a hreg ha => ?_⟩
  obtain ⟨t, r, hexec, hres, hval, hpc, hslots, hrest⟩ :=
    resultImm_writes .imul imm (P := fun r => (r.toNat : Int) = (a.toInt * imm.toInt) % 65536) hreg ha
      (aluRes_imul_toNat a imm)
  have hmuli : exec (.muli imm reg) s = .next t := (signedAndUnsignedMultiplyAgree.1 imm reg s).symm.trans hexec
  exact ⟨t, r, hexec, hres, hval, hpc, hslots, hrest, hmuli⟩

/-- Settles O19: `resultReg_writes` with the ALU's signed product. -/
theorem imulrMultipliesSignedByTheSource : Obligations.ImulrMultipliesSignedByTheSource :=
  ⟨regFormOf_code (o := .imulr) rfl (fun _ _ => rfl) rfl,
    fun _ _ _ a b hsrc hdst ha hb => resultReg_writes .imul hsrc hdst ha hb (aluRes_imul_toNat a b)⟩

/-! ## SUB after ADD -/

/-- A slot that is replaced and then gets its old value back leaves the register file as it was. -/
theorem setSlot_setSlot_restore {x : RegFile} {i : RegIdx} {a : Word} (v : Word) (h : legalReg i = true)
    (ha : inspectPort x i = some a) : setSlot (setSlot x i v) i a = x := by
  apply RegFile.ext_inspect
  intro j
  by_cases hj : j = i
  · rw [hj, inspectPort_setSlot_same _ a h, ha]
  · rw [inspectPort_setSlot_other _ a h hj, inspectPort_setSlot_other x v h hj]

/-- R131 on two registers: the source still holds what was added, so subtracting it restores the destination. -/
theorem addr_subr_restores {src dst : RegIdx} (s : State) (hs : legalReg src = true) (hd : legalReg dst = true)
    (hne : src ≠ dst) :
    ∃ t u, exec (.addr src dst) s = .next t ∧ exec (.subr src dst) t = .next u ∧ u.regs = s.regs := by
  obtain ⟨a, ha⟩ := inspectPort_legal s.regs hd
  obtain ⟨b, hb⟩ := inspectPort_legal s.regs hs
  have hdst := inspectPort_setSlot_same s.regs (aluRes .add a b) hd
  have hsrc := (inspectPort_setSlot_other s.regs (aluRes .add a b) hd hne).trans hb
  refine ⟨_, _, resultReg_legal .add hs hd ha hb, resultReg_legal .sub hs hd hdst hsrc, ?_⟩
  rw [aluRes_sub_add]
  exact setSlot_setSlot_restore _ hd ha

/-- R131 on one register: SUBR subtracts the register from itself. -/
theorem addr_subr_same_zero {r : RegIdx} (s : State) (h : legalReg r = true) :
    ∃ t u, exec (.addr r r) s = .next t ∧ exec (.subr r r) t = .next u ∧ inspectPort u.regs r = some 0 := by
  obtain ⟨a, ha⟩ := inspectPort_legal s.regs h
  have hsum := inspectPort_setSlot_same s.regs (aluRes .add a a) h
  refine ⟨_, _, resultReg_legal .add h h ha ha, resultReg_legal .sub h h hsum hsum, ?_⟩
  rw [aluRes_sub_self]
  exact inspectPort_setSlot_same _ 0 h

/-- R131 with an immediate. -/
theorem addi_subi_restores (imm : Word) {reg : RegIdx} (s : State) (h : legalReg reg = true) :
    ∃ t u, exec (.addi imm reg) s = .next t ∧ exec (.subi imm reg) t = .next u ∧ u.regs = s.regs := by
  obtain ⟨a, ha⟩ := inspectPort_legal s.regs h
  have hsum := inspectPort_setSlot_same s.regs (aluRes .add a imm) h
  refine ⟨_, _, resultImm_legal .add imm h ha, resultImm_legal .sub imm h hsum, ?_⟩
  rw [aluRes_sub_add]
  exact setSlot_setSlot_restore _ h ha

/-- Settles O21: a source other than the destination is not changed by ADDR, and one equal to it is. -/
theorem subtractionUndoesAddition : Obligations.SubtractionUndoesAddition := by
  refine ⟨fun src dst s hsrc hdst => ?_, fun imm _ s hreg => addi_subi_restores imm s (legalReg_of_le_nine hreg)⟩
  have hd := legalReg_of_le_nine hdst
  by_cases heq : src = dst
  · subst heq
    obtain ⟨t, u, hadd, hsub, hzero⟩ := addr_subr_same_zero s hd
    exact ⟨t, u, hadd, hsub, absurd rfl, fun _ => hzero⟩
  · obtain ⟨t, u, hadd, hsub, hregs⟩ := addr_subr_restores s (legalReg_of_le_nine hsrc) hd heq
    exact ⟨t, u, hadd, hsub, fun _ => hregs, fun h => absurd h heq⟩

end Sys2Proof.Machine
end

section
/-! SUPPORT. The divisions (42_divide.md): quotient and remainder in the library's arithmetic, the laws they obey, and
the next state of a division, for a divisor of 0 and for any other. -/

namespace Sys2Proof.Machine

/-! ## Quotient and remainder by value (R121) -/

/-- The quotient is no larger than the dividend, so it fits 16 bits. -/
theorem aluQuot_divu_toNat (a b : Word) : (aluQuot .divu a b).toNat = a.toNat / b.toNat :=
  trunc16_natCast_of_lt (Nat.lt_of_le_of_lt (Nat.div_le_self ..) a.isLt)

/-- The remainder is no larger than the dividend, so it fits 16 bits. -/
theorem aluRem_divu_toNat (a b : Word) : (aluRem .divu a b).toNat = a.toNat % b.toNat :=
  trunc16_natCast_of_lt (Nat.lt_of_le_of_lt (Nat.mod_le ..) a.isLt)

theorem aluQuot_divs_toNat (a b : Word) :
    ((aluQuot .divs a b).toNat : Int) = Int.tdiv a.toInt b.toInt % 65536 := by
  rw [aluQuot, trunc16_toNat, tdiv, signed16_eq_toInt, signed16_eq_toInt]

theorem aluRem_divs_toNat (a b : Word) :
    ((aluRem .divs a b).toNat : Int) = Int.tmod a.toInt b.toInt % 65536 := by
  rw [aluRem, trunc16_toNat, trem_eq_tmod, signed16_eq_toInt, signed16_eq_toInt]

/-! ## The signed results as the library's signed division of words -/

theorem trunc16_eq_ofInt (z : Int) : trunc16 z = BitVec.ofInt 16 z := by
  apply BitVec.eq_of_toNat_eq
  have h := trunc16_toNat z
  rw [BitVec.toNat_ofInt]
  omega

/-- `BitVec.sdiv` gives 0x8000 for -32768 / -1 as well (R153, D10). -/
theorem aluQuot_divs_eq_sdiv (a b : Word) : aluQuot .divs a b = a.sdiv b := by
  apply BitVec.eq_of_toInt_eq
  rw [aluQuot, trunc16_eq_ofInt, BitVec.toInt_ofInt, tdiv, signed16_eq_toInt, signed16_eq_toInt, BitVec.toInt_sdiv]

/-- The signed remainder needs no truncation. -/
theorem aluRem_divs_eq_srem (a b : Word) : aluRem .divs a b = a.srem b := by
  rw [aluRem, trunc16_eq_ofInt, trem_eq_tmod, signed16_eq_toInt, signed16_eq_toInt, ← BitVec.toInt_srem,
    BitVec.ofInt_toInt]

/-! ## The laws of the results -/

/-- R152: the unsigned results are the quotient and the remainder of the naturals. -/
theorem divu_law (a : Word) {b : Word} (hb : b ≠ 0) :
    (aluQuot .divu a b).toNat * b.toNat + (aluRem .divu a b).toNat = a.toNat ∧
      (aluRem .divu a b).toNat < b.toNat ∧ (aluQuot .divu a b).toNat ≤ a.toNat := by
  have hpos : 0 < b.toNat := Nat.pos_of_ne_zero fun h => hb (BitVec.eq_of_toNat_eq h)
  rw [aluQuot_divu_toNat, aluRem_divu_toNat]
  exact ⟨Nat.div_add_mod' .., Nat.mod_lt _ hpos, Nat.div_le_self ..⟩

/-- R159 without truncation: only -32768 / -1 has a quotient that does not fit. -/
theorem divs_identity {a b : Word} (h : ¬ (a = 0x8000 ∧ b = 0xFFFF)) :
    (aluQuot .divs a b).toInt * b.toInt + (aluRem .divs a b).toInt = a.toInt := by
  rw [aluQuot_divs_eq_sdiv, aluRem_divs_eq_srem, BitVec.toInt_sdiv_of_ne_or_ne a b (not_and_or.mp h),
    BitVec.toInt_srem, Int.tdiv_mul_add_tmod]

/-- R159 modulo 65536: -32768 / -1 is one fixed case, and every other division is exact. -/
theorem divs_identity_emod (a b : Word) :
    ((aluQuot .divs a b).toInt * b.toInt + (aluRem .divs a b).toInt) % 65536 = a.toInt % 65536 := by
  by_cases h : a = 0x8000 ∧ b = 0xFFFF
  · obtain ⟨rfl, rfl⟩ := h
    decide
  · rw [divs_identity h]

theorem divs_rem_natAbs_lt (a : Word) {b : Word} (hb : b ≠ 0) :
    (aluRem .divs a b).toInt.natAbs < b.toInt.natAbs := by
  have hpos : 0 < b.toInt.natAbs := Int.natAbs_pos.mpr fun h => hb (BitVec.toInt_inj.mp h)
  rw [aluRem_divs_eq_srem, BitVec.toInt_srem, Int.natAbs_tmod]
  exact Nat.mod_lt _ hpos

/-- The remainder is zero or of the dividend's sign (R153, D9). -/
theorem divs_rem_sign (a b : Word) :
    (0 ≤ a.toInt → 0 ≤ (aluRem .divs a b).toInt) ∧ (a.toInt ≤ 0 → (aluRem .divs a b).toInt ≤ 0) := by
  rw [aluRem_divs_eq_srem, BitVec.toInt_srem]
  refine ⟨Int.tmod_nonneg _, fun ha => ?_⟩
  have hneg := Int.tmod_nonneg b.toInt (Int.neg_nonneg_of_nonpos ha)
  rw [Int.neg_tmod] at hneg
  exact Int.nonpos_of_neg_nonneg hneg

theorem divs_law (a : Word) {b : Word} (hb : b ≠ 0) :
    SignedDivisionLaw a b (aluQuot .divs a b) (aluRem .divs a b) :=
  ⟨divs_identity_emod a b, divs_identity, divs_rem_natAbs_lt a hb, divs_rem_sign a b⟩

/-- Settles O28: the results by O30, their law by `divu_law`. -/
theorem unsignedDivisionIdentity : Obligations.UnsignedDivisionIdentity := by
  obtain ⟨-, himm, hreg⟩ := onlyDivisionsWriteUnnamedRegisters
  refine ⟨fun imm reg s d hr hd hne => ?_, fun src dst s d v hsrc hdst hd hv hne => ?_⟩
  · obtain ⟨t, hexec, hquot, hrem⟩ := himm .divu imm reg s d hr hd hne
    exact ⟨t, _, _, hexec, hquot, hrem, aluQuot_divu_toNat d imm, aluRem_divu_toNat d imm, divu_law d hne⟩
  · obtain ⟨t, hexec, hquot, hrem⟩ := hreg .divu src dst s d v hsrc hdst hd hv hne
    exact ⟨t, _, _, hexec, hquot, hrem, aluQuot_divu_toNat d v, aluRem_divu_toNat d v, divu_law d hne⟩

/-- Settles O29: the results by O30, their law by `divs_law`. -/
theorem signedDivisionIdentity : Obligations.SignedDivisionIdentity := by
  obtain ⟨-, himm, hreg⟩ := onlyDivisionsWriteUnnamedRegisters
  refine ⟨fun imm reg s d hr hd hne => ?_, fun src dst s d v hsrc hdst hd hv hne => ?_⟩
  · obtain ⟨t, hexec, hquot, hrem⟩ := himm .divs imm reg s d hr hd hne
    exact ⟨t, _, _, hexec, hquot, hrem, divs_law d hne⟩
  · obtain ⟨t, hexec, hquot, hrem⟩ := hreg .divs src dst s d v hsrc hdst hd hv hne
    exact ⟨t, _, _, hexec, hquot, hrem, divs_law d hne⟩

/-- Settles O26: the ALU gives each row of the table, and O30 takes its results to GP0 and GP1. -/
theorem signedDivisionTable : Obligations.SignedDivisionTable := by
  intro p hp
  have hrow : p.2.1 ≠ 0 ∧ aluQuot .divs p.1 p.2.1 = p.2.2.1 ∧ aluRem .divs p.1 p.2.1 = p.2.2.2 := by
    fin_cases hp <;> decide
  obtain ⟨hne, hquot, hrem⟩ := hrow
  obtain ⟨-, -, hreg⟩ := onlyDivisionsWriteUnnamedRegisters
  intro src dst s hsrc hdst hd hv
  rw [← hquot, ← hrem]
  exact hreg .divs src dst s p.1 p.2.1 hsrc hdst hd hv hne

/-! ## The next state of a division -/

/-- R151: dividing by 0 leaves the register file as it is. -/
theorem divided_zero (o : DivOp) (a : Word) (x : RegFile) : divided o a 0 x = x := if_pos rfl

theorem divideImm_zero (o : DivOp) {reg : RegIdx} (s : State) (hreg : reg.toNat ≤ 9) :
    divideImm o 0 reg s = .next (s.withPc (s.pc + 4)) := by
  have h := legalReg_of_le_nine hreg
  obtain ⟨a, ha⟩ := inspectPort_legal s.regs h
  rw [divideImm_legal o 0 h ha, divided_zero]
  rfl

theorem divideReg_zero (o : DivOp) {src dst : RegIdx} {s : State} (hsrc : src.toNat ≤ 9) (hdst : dst.toNat ≤ 9)
    (hv : inspectPort s.regs src = some 0) : divideReg o src dst s = .next (s.withPc (s.pc + 3)) := by
  have h := legalReg_of_le_nine hdst
  obtain ⟨a, ha⟩ := inspectPort_legal s.regs h
  rw [divideReg_legal o (legalReg_of_le_nine hsrc) h ha hv, divided_zero]
  rfl

/-- Settles O27: neither form writes for a divisor of 0, whatever the operation; the zero test by `signed16_eq_zero`. -/
theorem divisionByZeroIsANoOp : Obligations.DivisionByZeroIsANoOp :=
  ⟨fun _ s hreg => ⟨divideImm_zero .divu s hreg, divideImm_zero .divs s hreg⟩,
    fun _ _ _ hsrc hdst hv => ⟨divideReg_zero .divu hsrc hdst hv, divideReg_zero .divs hsrc hdst hv⟩,
    fun v => signed16_eq_toInt v ▸ signed16_eq_zero v⟩

/-- What a division by `b` writes between `s` and `t`: no slot when `b` is 0, and else GP0 and GP1 alone, with results
that `P` describes (R150, R151). -/
def DivisionWrites (s t : State) (b : Word) (P : Word → Word → Prop) : Prop :=
  (b = 0 → s.SlotsKept t []) ∧
  (b ≠ 0 → s.SlotsKept t [0, 1] ∧ ∃ q r, inspectPort t.regs 0 = some q ∧ inspectPort t.regs 1 = some r ∧ P q r)

theorem divideInto_writes (o : DivOp) (f : Format) (a b : Word) (s : State) {P : Word → Word → Prop}
    (hP : P (aluQuot o a b) (aluRem o a b)) :
    ∃ t, divideInto o f a b s = .next t ∧ t.pc = s.pc + f.length ∧ s.RestKept t ∧ DivisionWrites s t b P := by
  have hexec := divideInto_eq o f a b s
  refine ⟨_, hexec, rfl, restKept_withRegs_withPc .., fun hzero _ _ => ?_, fun hne => ⟨divideInto_slotsKept hexec, ?_⟩⟩
  · rw [State.withPc_regs, State.withRegs_regs, hzero, divided_zero]
  · obtain ⟨hquot, hrem⟩ := inspectPort_divided_results o a s.regs hne
    exact ⟨_, _, hquot, hrem, hP⟩

/-- R85: format I divides the register by the immediate. -/
theorem divideImm_writes (o : DivOp) (imm : Word) {reg : RegIdx} {s : State} {a : Word} {P : Word → Word → Prop}
    (hreg : reg.toNat ≤ 9) (ha : inspectPort s.regs reg = some a) (hP : P (aluQuot o a imm) (aluRem o a imm)) :
    ∃ t, divideImm o imm reg s = .next t ∧ t.pc = s.pc + 4 ∧ s.RestKept t ∧ DivisionWrites s t imm P := by
  rw [divideImm, withReg_legal (legalReg_of_le_nine hreg) ha]
  exact divideInto_writes o .immediate a imm s hP

/-- R85: format R divides the destination by the source. Both are read before the writes, so they may be GP0 and GP1. -/
theorem divideReg_writes (o : DivOp) {src dst : RegIdx} {s : State} {a b : Word} {P : Word → Word → Prop}
    (hsrc : src.toNat ≤ 9) (hdst : dst.toNat ≤ 9) (ha : inspectPort s.regs dst = some a)
    (hb : inspectPort s.regs src = some b) (hP : P (aluQuot o a b) (aluRem o a b)) :
    ∃ t, divideReg o src dst s = .next t ∧ t.pc = s.pc + 3 ∧ s.RestKept t ∧ DivisionWrites s t b P := by
  rw [divideReg, withReg_legal (legalReg_of_le_nine hdst) ha, withReg_legal (legalReg_of_le_nine hsrc) hb]
  exact divideInto_writes o .register a b s hP

/-- Settles O22: `divideImm_writes` with the ALU's unsigned results. -/
theorem diviWritesQuotientAndRemainder : Obligations.DiviWritesQuotientAndRemainder :=
  ⟨immFormOf_code (o := .divi) rfl (fun _ _ => rfl) rfl,
    fun imm _ _ d hreg hd =>
      divideImm_writes .divu imm hreg hd ⟨aluQuot_divu_toNat d imm, aluRem_divu_toNat d imm⟩⟩

/-- Settles O23: `divideReg_writes` with the ALU's unsigned results. -/
theorem divrWritesQuotientAndRemainder : Obligations.DivrWritesQuotientAndRemainder :=
  ⟨regFormOf_code (o := .divr) rfl (fun _ _ => rfl) rfl,
    fun _ _ _ d v hsrc hdst hd hv =>
      divideReg_writes .divu hsrc hdst hd hv ⟨aluQuot_divu_toNat d v, aluRem_divu_toNat d v⟩⟩

/-- Settles O24: `divideImm_writes` with the ALU's signed results. -/
theorem idiviWritesSignedQuotientAndRemainder : Obligations.IdiviWritesSignedQuotientAndRemainder :=
  ⟨immFormOf_code (o := .idivi) rfl (fun _ _ => rfl) rfl,
    fun imm _ _ d hreg hd =>
      divideImm_writes .divs imm hreg hd ⟨aluQuot_divs_toNat d imm, aluRem_divs_toNat d imm⟩⟩

/-- Settles O25: `divideReg_writes` with the ALU's signed results. -/
theorem idivrWritesSignedQuotientAndRemainder : Obligations.IdivrWritesSignedQuotientAndRemainder :=
  ⟨regFormOf_code (o := .idivr) rfl (fun _ _ => rfl) rfl,
    fun _ _ _ d v hsrc hdst hd hv =>
      divideReg_writes .divs hsrc hdst hd hv ⟨aluQuot_divs_toNat d v, aluRem_divs_toNat d v⟩⟩

end Sys2Proof.Machine
end

section
/-! SUPPORT. Control (43_control.md): what a step does with a fetched instruction, the transitions out of Running, how a
run ends, and the start of a run by the host. -/

namespace Sys2Proof.Machine

/-! ## The step on a fetched instruction -/

/-- R172: the step executes what the fetch gives and then checks for the end of the buffer. -/
theorem step_of_fetch_instr {s u : State} {i : Instr} (hrun : s.run = .running) (hfetch : fetch s = .ok (.instr i))
    (hexec : exec i s = .next u) : step s = .next u.exhaust := by
  rw [step_of_running hrun]
  exact stepRunning_next_iff.mpr (.inr ⟨i, u, hfetch, hexec, rfl⟩)

/-- R196: the step takes the error the fetch raises. -/
theorem step_of_fetch_raise {s : State} {e : FatalError} (hrun : s.run = .running) (hfetch : fetch s = .ok (.raise e)) :
    step s = .next (s.abort e) := by
  rw [step_of_running hrun]
  exact stepRunning_next_iff.mpr (.inl ⟨e, hfetch, rfl⟩)

/-- A fetched instruction is well formed (R82). -/
theorem fetch_instr_wf {s : State} {i : Instr} (h : fetch s = .ok (.instr i)) : i.wf = true := by
  obtain ⟨_, _, _, _, _, hd⟩ := fetch_inside h
  exact decodeOperands_wf hd

/-- After EXIT the end check changes nothing (R170). -/
theorem State.exhaust_withRun_halted (s : State) : (s.withRun .halted).exhaust = s.withRun .halted := ite_self _

theorem encode_length (i : Instr) : (encode i).length = i.len := by cases i <;> rfl

/-- R81: at the encoding of a well-formed instruction, the fetch gives that instruction. -/
theorem fetch_of_encode {s : State} {i : Instr} (hw : i.wf = true)
    (hbytes : ∀ k (h : k < (encode i).length), memRead s (s.pc + k) = .ok (encode i)[k]) :
    fetch s = .ok (.instr i) := by
  have hlen : (encode i).tail.length = i.len - 1 := by rw [List.length_tail, encode_length]
  have hpos : 1 ≤ i.len := i.op.len_range.1
  have hopcode : memRead s s.pc = .ok i.op.code :=
    (hbytes 0 (by rw [encode_length]; omega)).trans (congrArg _ (List.getElem_of_eq (encode_eq_cons i) _))
  have hlast := (memRead_ok_iff.mp (hbytes (i.len - 1) (by rw [encode_length]; omega))).1
  have hinside : i.len ≤ s.bufLen - s.pc := by omega
  have hoperands : memReads s (s.pc + 1) (i.len - 1) = .ok (encode i).tail := by
    refine memReads_ok_iff.mpr ⟨hlen, fun k hk => ?_⟩
    rw [List.getElem_tail, Nat.add_assoc, Nat.add_comm 1 k]
    exact hbytes (k + 1) (by rw [encode_length]; omega)
  have hdecode : decodeOperands i.op (encode i).tail = .instr i := by
    simpa using decodeOperands_encode hw []
  exact fetch_ok_iff.mpr
    ⟨_, hopcode, .inr ⟨i.op, _, decodeOpcode_ok_iff.mpr ⟨rfl, hinside⟩, hoperands, hdecode.symm⟩⟩

/-- Settles O34, by `fetch_of_encode` and `exec_completes`. -/
theorem stepRunsTheDecodedInstruction : Obligations.StepRunsTheDecodedInstruction := by
  intro s i hrun hw hbytes
  exact ⟨fun t hexec => step_of_fetch_instr hrun (fetch_of_encode hw hbytes) hexec, exec_completes s hw⟩

/-- R170: the byte 255 is the whole encoding of EXIT. -/
theorem fetch_exit {s : State} (h : memRead s s.pc = .ok Config.exitOpcode) : fetch s = .ok (.instr .exit) :=
  fetch_of_encode (i := .exit) rfl fun k hk => by
    obtain rfl : k = 0 := Nat.lt_one_iff.mp hk
    exact h

theorem step_exit {s : State} (hrun : s.run = .running) (h : memRead s s.pc = .ok Config.exitOpcode) :
    step s = .next (s.withRun .halted) := by
  rw [step_of_fetch_instr hrun (fetch_exit h) rfl, State.exhaust_withRun_halted]

/-- Settles O35: EXIT decodes by its opcode byte alone, and its step by `step_exit`. -/
theorem exitHaltsWithoutAdvancing : Obligations.ExitHaltsWithoutAdvancing :=
  ⟨rfl, decode_code .exit, fun _ => ⟨_, rfl, rfl, rfl, rfl, rfl, rfl, memRead_congr rfl rfl⟩,
    fun _ hrun h => ⟨step_exit hrun h, (memRead_ok_iff.mp h).1⟩⟩

/-! ## The transitions out of Running -/

theorem len_three_or_four {i : Instr} (h : i ≠ .exit) : i.len = 3 ∨ i.len = 4 := by
  have hop : i.op ≠ .exit := by
    revert h
    cases i <;> simp [Instr.op]
  have h3 := Op.three_le_len hop
  have h4 := i.op.len_range.2
  unfold Instr.len
  omega

/-- R172: after an advance inside the buffer the run is Running below its end and Halted at it. -/
theorem exhaust_run_of_le {u : State} (hrun : u.run = .running) (h : u.pc ≤ u.bufLen) :
    (u.pc < u.bufLen ∧ u.exhaust.run = .running) ∨ (u.pc = u.bufLen ∧ u.exhaust.run = .halted) := by
  rw [State.exhaust_run, hrun]
  obtain hlt | heq := Nat.lt_or_eq_of_le h
  · exact .inl ⟨hlt, if_neg hlt.ne⟩
  · exact .inr ⟨heq, if_pos heq⟩

/-- Settles O41: the step's two outcomes, and of an executed instruction `exec_next_cases`. -/
theorem runningTransitionsAreComplete : Obligations.RunningTransitionsAreComplete := by
  intro s t hrun hstep
  rw [step_of_running hrun] at hstep
  obtain ⟨e, hfetch, rfl⟩ | ⟨i, u, hfetch, hexec, rfl⟩ := stepRunning_next_iff.mp hstep
  · exact .inl ⟨e, hfetch, rfl, rfl, rfl, rfl⟩
  · obtain ⟨rfl, rfl⟩ | ⟨hne, x, rfl⟩ := exec_next_cases hexec
    · rw [State.exhaust_withRun_halted]
      exact .inr (.inl ⟨hfetch, rfl, rfl, rfl, rfl⟩)
    · have hend := exhaust_run_of_le (u := (s.withRegs x).withPc (s.pc + i.len)) hrun (fetch_instr_inside hfetch).2
      refine .inr (.inr ⟨i, _, hne, hfetch, hexec, State.exhaust_regs _, State.exhaust_pc _, len_three_or_four hne,
        State.exhaust_err _, ?_⟩)
      rw [State.exhaust_pc]
      exact hend

/-! ## Control does not depend on the registers -/

theorem sameButRegs_iff {s t : State} : s.SameButRegs t ↔ ∃ x, t = s.withRegs x := by
  constructor
  · obtain ⟨x, pc, run, err, mem, bufLen⟩ := t
    rintro ⟨rfl, rfl, rfl, rfl, rfl⟩
    exact ⟨x, rfl⟩
  · rintro ⟨x, rfl⟩
    exact ⟨rfl, rfl, rfl, rfl, rfl⟩

/-- From two register files, a well-formed instruction completes with states that differ in their registers alone. -/
theorem exec_withRegs {i : Instr} (s : State) (x : RegFile) (hw : i.wf = true) :
    ∃ u y, exec i s = .next u ∧ exec i (s.withRegs x) = .next (u.withRegs y) := by
  obtain ⟨u, hu⟩ := exec_completes s hw
  obtain ⟨v, hv⟩ := exec_completes (s.withRegs x) hw
  obtain ⟨rfl, rfl⟩ | ⟨hne, y, rfl⟩ := exec_next_cases hu
  · exact ⟨_, x, rfl, rfl⟩
  · obtain ⟨rfl, _⟩ | ⟨_, z, rfl⟩ := exec_next_cases hv
    · exact absurd rfl hne
    · exact ⟨_, z, hu, hv⟩

theorem State.exhaust_withRegs (u : State) (x : RegFile) : (u.withRegs x).exhaust = u.exhaust.withRegs x :=
  (apply_ite (State.withRegs x) (u.pc = u.bufLen) (u.withRun .halted) u).symm

/-- Settles O44: both states fetch the same, and both abort, or both complete by `exec_withRegs`. -/
theorem controlIsIndependentOfRegisters : Obligations.ControlIsIndependentOfRegisters := by
  intro s t hsame
  obtain ⟨x, rfl⟩ := sameButRegs_iff.mp hsame
  by_cases hrun : s.run = .running
  · have hrun' : (s.withRegs x).run = .running := hrun
    have hfetch' : fetch (s.withRegs x) = fetch s := fetch_congr rfl rfl rfl
    match hfetch : fetch s with
    | .error f =>
        rw [step_of_running hrun, step_of_running hrun', stepRunning, stepRunning, hfetch', hfetch]
        rfl
    | .ok (.raise e) =>
        rw [step_of_fetch_raise hrun hfetch, step_of_fetch_raise hrun' (hfetch'.trans hfetch)]
        exact ⟨rfl, rfl, rfl, rfl, rfl⟩
    | .ok (.instr i) =>
        obtain ⟨u, y, hu, hv⟩ := exec_withRegs s x (fetch_instr_wf hfetch)
        rw [step_of_fetch_instr hrun hfetch hu, step_of_fetch_instr hrun' (hfetch'.trans hfetch) hv,
          State.exhaust_withRegs]
        exact ⟨rfl, rfl, rfl, rfl, rfl⟩
  · rw [step_of_not_running hrun, step_of_not_running (s := s.withRegs x) hrun]
    exact hsame

/-! ## How a run ends -/

theorem ended_iff {s : State} : s.Ended ↔ s.run ≠ .running := by
  unfold State.Ended
  cases s.run <;> simp

/-- Settles O50, from the clauses of the invariant for Halted and for Aborted. -/
theorem endedRunsAreOfThreeKinds : Obligations.EndedRunsAreOfThreeKinds := by
  intro s hinv hended
  obtain hrun | hrun := ended_iff.mpr hended
  · have herr : s.err = none := hinv.errAborted.mpr (by simp [hrun])
    obtain hend | hexit := hinv.haltedWhy hrun
    · exact .inr (.inl ⟨hrun, hend, herr⟩)
    · exact .inl ⟨hrun, (memRead_ok_iff.mp hexit).1, hexit, herr⟩
  · have herr : s.err ≠ none := fun h => hinv.errAborted.mp h hrun
    obtain ⟨e, he⟩ := Option.ne_none_iff_exists'.mp herr
    have hfetch := hinv.errHere e he
    obtain ⟨_, hb, _⟩ := fetch_raise_cases hfetch
    exact .inr (.inr ⟨hrun, (memRead_ok_iff.mp hb).1, e, he, hfetch⟩)

/-- A Running state inside a presented buffer takes a step: decoding answers on its bytes (R81, R190). -/
theorem exists_step_of_inside {s : State} (hrun : s.run = .running) (hp : s.Presented) (hin : s.pc < s.bufLen) :
    ∃ t, step s = .next t := by
  have hfetch := fetch_eq_decode_inputs hp hin
  cases hd : decode (inputByte s 0) (operandInputs s (min (s.bufLen - s.pc) 4)) with
  | raise e => exact ⟨_, step_of_fetch_raise hrun (hd ▸ hfetch)⟩
  | instr i =>
      obtain ⟨u, hu⟩ := exec_completes s (decode_wf hd)
      exact ⟨_, step_of_fetch_instr hrun (hd ▸ hfetch) hu⟩

/-- R175: a step of a run ends it or moves the pc at least three bytes on. -/
theorem step_ends_or_advances {s t : State} (hrun : s.run = .running) (h : step s = .next t) :
    t.run ≠ .running ∨ s.pc + 3 ≤ t.pc := by
  obtain ⟨_, _, hend, _⟩ | ⟨_, hend, _⟩ | ⟨_, _, _, _, _, _, hpc, hlen, _⟩ :=
    runningTransitionsAreComplete s t hrun h
  · exact .inl (by simp [hend])
  · exact .inl (by simp [hend])
  · exact .inr (by omega)

/-- The run from `s` has ended after `k` steps, and every longer run gives the same state. -/
def State.EndsWithin (s : State) (k : Nat) : Prop :=
  ∃ t, t.Ended ∧ ∀ n, k ≤ n → Host.Core.run Sys2Proof.core n s = .next t

theorem endsWithin_of_not_running {s : State} (k : Nat) (h : s.run ≠ .running) : s.EndsWithin k :=
  ⟨s, ended_iff.mpr h, fun n _ => terminalStatesStay n s h⟩

theorem endsWithin_succ {s t : State} {k : Nat} (hstep : step s = .next t) (h : t.EndsWithin k) :
    s.EndsWithin (k + 1) := by
  obtain ⟨u, hu, hrun⟩ := h
  refine ⟨u, hu, fun n hn => ?_⟩
  obtain ⟨m, rfl⟩ : ∃ m, n = m + 1 := ⟨n - 1, by omega⟩
  rw [core_run_succ hstep, hrun m (by omega)]

/-- R175: with at most `3 * k` bytes left, a run ends within `k` steps. -/
theorem endsWithin_of_remaining_le {s : State} {k : Nat} (hinv : s.Inv) (h : s.bufLen - s.pc ≤ 3 * k) :
    s.EndsWithin k := by
  induction k generalizing s with
  | zero =>
      refine endsWithin_of_not_running 0 fun hrun => ?_
      have hin := hinv.runningInside hrun
      omega
  | succ k ih =>
      by_cases hrun : s.run = .running
      · obtain ⟨t, hstep⟩ := exists_step_of_inside hrun hinv.presented (hinv.runningInside hrun)
        have hlen := (step_keeps_buffer hstep).2
        obtain hend | hpc := step_ends_or_advances hrun hstep
        · exact endsWithin_succ hstep (endsWithin_of_not_running k hend)
        · exact endsWithin_succ hstep (ih (stepKeepsTheInvariant s t hinv hstep) (by omega))
      · exact endsWithin_of_not_running _ hrun

/-- Settles O49, by `endsWithin_of_remaining_le`. -/
theorem everyRunEnds : Obligations.EveryRunEnds := by
  intro s hinv
  obtain ⟨t, hended, hrun⟩ := endsWithin_of_remaining_le (k := (s.bufLen - s.pc + 2) / 3) hinv (by omega)
  exact ⟨t, hrun _ le_rfl, hended, hrun⟩

/-! ## The start of a run -/

/-- R52: there is no byte at L or beyond. -/
theorem memRead_outside {s : State} {a : Nat} (h : s.bufLen ≤ a) : memRead s a = .error (.outsideBuffer a) :=
  if_neg (Nat.not_lt_of_le h)

theorem started_running_iff {bs : List Byte} {s : State} : (s.started bs).run = .running ↔ bs ≠ [] := by
  simp

theorem started_halted_iff {bs : List Byte} {s : State} : (s.started bs).run = .halted ↔ bs = [] := by
  simp

/-- Settles O52: the fields of `State.started`, its bytes by `memRead_started` and `memRead_outside`. -/
theorem startBeginsARun : Obligations.StartBeginsARun := by
  intro bs s h
  exact ⟨s.started bs, betweenRuns_next_iff.mpr ⟨h, rfl⟩, rfl, rfl, rfl, rfl, fun _ ha => memRead_started bs s ha,
    fun _ ha => memRead_outside ha, started_halted_iff.mpr, started_running_iff.mpr⟩

/-- R171: a start on any bytes leads from FLAGS 0 to a state the spec allows. -/
theorem inv_started (bs : List Byte) {s : State} (hflags : s.flagsReserved = true) : (s.started bs).Inv where
  canonical := State.started_mem_wf bs s
  presented := fun a => by simp [Memory.read_layout]
  pcInside := Nat.zero_le _
  runningInside := fun h => List.length_pos_of_ne_nil (started_running_iff.mp h)
  errAborted := by
    rw [State.started_run]
    split <;> simp
  errHere := fun _ h => by cases h
  haltedWhy := fun h => .inl (List.length_eq_zero_iff.mpr (started_halted_iff.mp h)).symm
  flagsZero := hflags

/-- Settles O54, by `resetStateIsAllowed` for the construction and `inv_started` for the start. -/
theorem hostMovesKeepTheInvariant : Obligations.HostMovesKeepTheInvariant := by
  refine ⟨resetStateIsAllowed, fun m s t hinv hmove => ?_⟩
  cases m with
  | por => exact (betweenRuns_next_iff.mp hmove).2 ▸ resetStateIsAllowed
  | start bs => exact (betweenRuns_next_iff.mp hmove).2 ▸ inv_started bs hinv.flagsZero

/-! ## Placing a word to fetch -/

/-- A byte put beyond every listed offset is listed last. -/
theorem put_of_offsets_lt {m : Memory} {a : Nat} (b : Byte) (h : ∀ p ∈ m, p.1 < a) :
    Memory.put m a b = m ++ [(a, b)] := by
  induction m with
  | nil => rfl
  | cons p m ih =>
      obtain ⟨hp, hm⟩ := List.forall_mem_cons.mp h
      simp only [Memory.put, if_neg hp.not_gt, if_neg hp.ne', ih hm, List.cons_append]

/-- Bytes put one after another beyond every listed offset are laid out there. -/
theorem putBytes_of_offsets_lt (bs : List Byte) {m : Memory} {a : Nat} (h : ∀ p ∈ m, p.1 < a) :
    Memory.putBytes m a bs = m ++ Memory.layout a bs := by
  induction bs generalizing m a with
  | nil => exact (List.append_nil m).symm
  | cons b bs ih =>
      have hnext : ∀ p ∈ m ++ [(a, b)], p.1 < a + 1 := by
        simp only [List.forall_mem_append, List.forall_mem_singleton]
        exact ⟨fun p hp => Nat.lt_succ_of_lt (h p hp), Nat.lt_succ_self a⟩
      rw [Memory.putBytes, put_of_offsets_lt b h, ih hnext, List.append_assoc]
      rfl

/-- On the reset state, placing bytes to fetch is the host's start on them (R171; log 3). -/
theorem hostStart_reset_eq_placeForFetch {bs : List Byte} (h : bs ≠ []) :
    hostStart bs State.reset = .next (placeForFetch bs State.reset) := by
  have hbytes : Memory.putBytes [] 0 bs = Memory.layout 0 bs := putBytes_of_offsets_lt bs (by simp)
  have hlen : max 0 (0 + bs.length) = bs.length := by omega
  have hplace : placeForFetch bs State.reset = State.reset.started bs := by
    simp only [placeForFetch, State.started, State.reset, hbytes, hlen, if_neg (mt List.length_eq_zero_iff.mp h)]
    rfl
  exact betweenRuns_next_iff.mpr ⟨by decide, hplace⟩

/-- Settles O57, by `hostStart_reset_eq_placeForFetch`: a table word has bytes. -/
theorem withFetchWordIsAStartOnReset : Obligations.WithFetchWordIsAStartOnReset :=
  fun _ _ => hostStart_reset_eq_placeForFetch (List.cons_ne_nil _ _)

end Sys2Proof.Machine
end

section
/-! SUPPORT. The fatal errors (60_exceptions.md): where the fetch raises each of them, what taking one does, the status
outputs that report it, and the host's moves during a run. -/

namespace Sys2Proof.Machine

/-! ## The opcode bytes of a format -/

/-- The opcode bytes of one format, as numbers, in the order of R77. -/
def codesOf (f : Format) : List Nat := (allOps.filter fun o => o.format == f).map fun o => o.code.toNat

theorem codesOf_immediate : codesOf .immediate = [20, 30, 32, 34, 36, 38, 40] := by decide

theorem codesOf_register : codesOf .register = [21, 31, 33, 35, 37, 39, 41] := by decide

theorem toNat_mem_codesOf_iff {b : Byte} {f : Format} :
    b.toNat ∈ codesOf f ↔ ∃ o : Op, o.format = f ∧ b = o.code := by
  simp only [codesOf, List.mem_map, List.mem_filter, beq_iff_eq, mem_allOps, true_and, BitVec.toNat_inj,
    eq_comm (a := b)]

/-- The opcode bytes of format I (R71, R77). -/
theorem immediate_code_iff {b : Byte} :
    b.toNat ∈ [20, 30, 32, 34, 36, 38, 40] ↔ ∃ o : Op, o.format = .immediate ∧ b = o.code := by
  rw [← codesOf_immediate, toNat_mem_codesOf_iff]

/-- The opcode bytes of format R (R72, R77). -/
theorem register_code_iff {b : Byte} :
    b.toNat ∈ [21, 31, 33, 35, 37, 39, 41] ↔ ∃ o : Op, o.format = .register ∧ b = o.code := by
  rw [← codesOf_register, toNat_mem_codesOf_iff]

/-- What can be truncated is of format I or R: EXIT is all there with its opcode byte (R70, R192). -/
theorem format_of_one_lt_len {o : Op} (h : 1 < o.len) :
    (o.len = 4 ∧ o.format = .immediate) ∨ (o.len = 3 ∧ o.format = .register) := by
  unfold Op.len at h ⊢
  cases hfmt : o.format with
  | immediate => exact .inl ⟨rfl, rfl⟩
  | register => exact .inr ⟨rfl, rfl⟩
  | none =>
      rw [hfmt] at h
      exact absurd h (by decide)

/-! ## Where the fetch raises each error -/

theorem decodeOpcode_unrecognized {b : Byte} (h : opOfByte b = none) (n : Nat) :
    decodeOpcode b n = .error (.unrecognizedOpcode b) := by
  simp only [decodeOpcode, h]

theorem decodeOpcode_truncated {o : Op} {n : Nat} (h : n < o.len) :
    decodeOpcode o.code n = .error (.truncated o.code o.len n) := by
  simp only [decodeOpcode, opOfByte_code, if_pos h]

/-- R191: the fetch raises this error at the bytes that are no opcode, and nowhere else. -/
theorem fetch_unrecognized_iff {s : State} {op : Byte} :
    fetch s = .ok (.raise (.unrecognizedOpcode op)) ↔ memRead s s.pc = .ok op ∧ opOfByte op = none := by
  constructor
  · intro h
    obtain ⟨b, hb, herr | ⟨_, _, _, _, he⟩⟩ := fetch_raise_cases h
    · obtain ⟨he, hnone⟩ | ⟨_, _, _, he⟩ := decodeOpcode_error_cases herr
      · cases he
        exact ⟨hb, opOfByte_eq_none_iff.mpr hnone⟩
      · cases he
    · cases he
  · rintro ⟨hb, hnone⟩
    exact fetch_ok_iff.mpr ⟨op, hb, .inl ⟨_, decodeOpcode_unrecognized hnone _, rfl⟩⟩

/-- R192: the fetch raises this error at an opcode with too few bytes left for it, and nowhere else; it has read the
opcode byte alone. -/
theorem fetch_truncated_iff {s : State} {op : Byte} {required remaining : Nat} :
    fetch s = .ok (.raise (.truncated op required remaining)) ↔
      memRead s s.pc = .ok op ∧ remaining = s.bufLen - s.pc ∧
        ∃ o : Op, op = o.code ∧ required = o.len ∧ remaining < o.len := by
  constructor
  · intro h
    obtain ⟨b, hb, herr | ⟨_, _, _, _, he⟩⟩ := fetch_raise_cases h
    · obtain ⟨he, _⟩ | ⟨o, rfl, hlt, he⟩ := decodeOpcode_error_cases herr
      · cases he
      · cases he
        exact ⟨hb, rfl, o, rfl, rfl, hlt⟩
    · cases he
  · rintro ⟨hb, rfl, o, rfl, rfl, hlt⟩
    exact fetch_ok_iff.mpr ⟨_, hb, .inl ⟨_, decodeOpcode_truncated hlt, rfl⟩⟩

/-- With all its operand bytes there, a fetch gives what they decode to (R81). -/
theorem fetch_of_operand_bytes {s : State} {o : Op} {bs : List Byte} (hop : memRead s s.pc = .ok o.code)
    (hin : o.len ≤ s.bufLen - s.pc) (hbs : memReads s (s.pc + 1) (o.len - 1) = .ok bs) :
    fetch s = .ok (decodeOperands o bs) :=
  fetch_ok_iff.mpr ⟨_, hop, .inr ⟨o, bs, decodeOpcode_ok_iff.mpr ⟨rfl, hin⟩, hbs, rfl⟩⟩

/-- The fetch of a whole instruction of format I (R71). -/
theorem fetch_immediate_bytes {s : State} {o : Op} {lo hi r : Byte} (hfmt : o.format = .immediate)
    (hop : memRead s s.pc = .ok o.code) (hlo : memRead s (s.pc + 1) = .ok lo) (hhi : memRead s (s.pc + 2) = .ok hi)
    (hreg : memRead s (s.pc + 3) = .ok r) : fetch s = .ok (decodeOperands o [lo, hi, r]) := by
  have hlen : o.len = 4 := congrArg Format.length hfmt
  have hlast := (memRead_ok_iff.mp hreg).1
  refine fetch_of_operand_bytes hop (by omega) ?_
  simp [hlen, memReads, hlo, hhi, hreg, Nat.add_assoc]

/-- The fetch of a whole instruction of format R (R72). -/
theorem fetch_register_bytes {s : State} {o : Op} {x d : Byte} (hfmt : o.format = .register)
    (hop : memRead s s.pc = .ok o.code) (hsrc : memRead s (s.pc + 1) = .ok x)
    (hdst : memRead s (s.pc + 2) = .ok d) : fetch s = .ok (decodeOperands o [x, d]) := by
  have hlen : o.len = 3 := congrArg Format.length hfmt
  have hlast := (memRead_ok_iff.mp hdst).1
  refine fetch_of_operand_bytes hop (by omega) ?_
  simp [hlen, memReads, hsrc, hdst, Nat.add_assoc]

/-! ## Taking an error -/

/-- Settles O36: `fetch_unrecognized_iff` at the byte ranges of R79. -/
theorem unrecognizedOpcodeAborts : Obligations.UnrecognizedOpcodeAborts := by
  intro s b hrun hb
  refine ⟨fun hrange => ?_, fun hcode op hfetch => ?_⟩
  · exact step_of_fetch_raise hrun (fetch_unrecognized_iff.mpr ⟨hb, opOfByte_eq_none_iff_range.mpr hrange⟩)
  · obtain ⟨hop, hnone⟩ := fetch_unrecognized_iff.mp hfetch
    cases hb.symm.trans hop
    have hrange := opOfByte_eq_none_iff_range.mp hnone
    omega

/-- A truncated instruction aborts the run with what `fetch_truncated_iff` says. -/
theorem step_truncated {s : State} {o : Op} (hrun : s.run = .running) (hop : memRead s s.pc = .ok o.code)
    (h : s.bufLen - s.pc < o.len) :
    step s = .next (s.abort (.truncated o.code o.len (s.bufLen - s.pc))) :=
  step_of_fetch_raise hrun (fetch_truncated_iff.mpr ⟨hop, rfl, o, rfl, rfl, h⟩)

/-- Settles O37: `step_truncated` for the opcodes of each format, and for the converse `fetch_truncated_iff`, where the
opcode byte itself is one that remains. -/
theorem truncatedInstructionAborts : Obligations.TruncatedInstructionAborts := by
  intro s b hrun hb
  refine ⟨fun hcode hshort => ?_, fun hcode hshort => ?_, fun hexit => ?_, fun op required remaining hfetch => ?_⟩
  · obtain ⟨o, hfmt, rfl⟩ := immediate_code_iff.mp hcode
    have hlen : o.len = 4 := congrArg Format.length hfmt
    exact hlen ▸ step_truncated hrun hb (hlen ▸ hshort)
  · obtain ⟨o, hfmt, rfl⟩ := register_code_iff.mp hcode
    have hlen : o.len = 3 := congrArg Format.length hfmt
    exact hlen ▸ step_truncated hrun hb (hlen ▸ hshort)
  · have hcode : b = Config.exitOpcode := BitVec.eq_of_toNat_eq hexit
    exact fetch_exit (hcode ▸ hb)
  · obtain ⟨hop, hrem, o, rfl, rfl, hlt⟩ := fetch_truncated_iff.mp hfetch
    cases hb.symm.trans hop
    have hin := (memRead_ok_iff.mp hb).1
    have h4 := o.len_range.2
    refine ⟨rfl, hrem, by omega, by omega, hlt, ?_⟩
    obtain ⟨hlen, hfmt⟩ | ⟨hlen, hfmt⟩ := format_of_one_lt_len (o := o) (by omega)
    · exact .inl ⟨hlen, immediate_code_iff.mpr ⟨o, hfmt, rfl⟩⟩
    · exact .inr ⟨hlen, register_code_iff.mpr ⟨o, hfmt, rfl⟩⟩

/-- The step takes the first error in the operand bytes fetched (R195, R196). -/
theorem step_of_firstOperandError {s : State} {o : Op} {bs : List Byte} {e : FatalError} (hrun : s.run = .running)
    (hfetch : fetch s = .ok (decodeOperands o bs)) (he : FirstOperandError o bs e) : step s = .next (s.abort e) := by
  rw [decodeOperands_raise_iff.mpr he] at hfetch
  exact step_of_fetch_raise hrun hfetch

/-- Settles O38: all bytes of the instruction are there, and the first error in its operand bytes is the illegal
register named. -/
theorem illegalRegisterAborts : Obligations.IllegalRegisterAborts := by
  refine ⟨fun s b lo hi r hrun hcode hb hlo hhi hreg hr => ?_, fun s b x d hrun hcode hb hsrc hdst => ?_⟩
  · obtain ⟨o, hfmt, rfl⟩ := immediate_code_iff.mp hcode
    exact step_of_firstOperandError hrun (fetch_immediate_bytes hfmt hb hlo hhi hreg)
      (.inr (.inl ⟨hfmt, lo, hi, r, [], rfl, hr, rfl⟩))
  · obtain ⟨o, hfmt, rfl⟩ := register_code_iff.mp hcode
    have hfetch := fetch_register_bytes hfmt hb hsrc hdst
    refine ⟨fun hx => ?_, fun hx hd => ?_⟩
    · exact step_of_firstOperandError hrun hfetch (.inr (.inr ⟨hfmt, x, d, [], rfl, .inl ⟨hx, rfl⟩⟩))
    · exact step_of_firstOperandError hrun hfetch (.inr (.inr ⟨hfmt, x, d, [], rfl, .inr ⟨hx, hd, rfl⟩⟩))

/-- Settles O39: the step is `State.abort`, which is terminal, so O40 says that it stays. -/
theorem abortIsPrecise : Obligations.AbortIsPrecise := by
  intro s e hrun hfetch
  have hterminal : (s.abort e).run ≠ .running := by simp
  exact ⟨s.abort e, step_of_fetch_raise hrun hfetch, rfl, rfl, rfl, rfl, rfl, memRead_congr rfl rfl,
    fun n => terminalStatesStay n _ hterminal⟩

/-- Settles O48: a Running state stands inside the presented buffer, and any other state answers itself. -/
theorem allowedStatesAlwaysStep : Obligations.AllowedStatesAlwaysStep := by
  intro s hinv
  by_cases hrun : s.run = .running
  · exact exists_step_of_inside hrun hinv.presented (hinv.runningInside hrun)
  · exact ⟨s, step_of_not_running hrun⟩

/-! ## The status outputs -/

@[simp] theorem State.status_state (s : State) : s.status.state = s.run.code := by
  unfold State.status; split <;> rfl

@[simp] theorem State.status_pc (s : State) : s.status.pc = s.pc := by
  unfold State.status; split <;> rfl

section StatusOfRecord
variable {s : State}

theorem State.status_of_no_error (h : s.err = none) :
    s.status = { state := s.run.code, pc := s.pc, errCode := 0, errOp := 0, errRequired := 0, errRemaining := 0
                 errRole := 0, errValue := 0 } := by
  simp only [State.status, h]

theorem State.status_of_unrecognized {op : Byte} (h : s.err = some (.unrecognizedOpcode op)) :
    s.status = { state := s.run.code, pc := s.pc, errCode := 1, errOp := op, errRequired := 0, errRemaining := 0
                 errRole := 0, errValue := 0 } := by
  simp only [State.status, h, errCode]

theorem State.status_of_truncated {op : Byte} {n k : Nat} (h : s.err = some (.truncated op n k)) :
    s.status = { state := s.run.code, pc := s.pc, errCode := 2, errOp := op, errRequired := BitVec.ofNat 3 n
                 errRemaining := BitVec.ofNat 3 k, errRole := 0, errValue := 0 } := by
  simp only [State.status, h, errCode]

theorem State.status_of_illegalRegister {op v : Byte} {role : RegRole}
    (h : s.err = some (.illegalRegister op role v)) :
    s.status = { state := s.run.code, pc := s.pc, errCode := 3, errOp := op, errRequired := 0, errRemaining := 0
                 errRole := roleCode role, errValue := v } := by
  simp only [State.status, h, errCode]

end StatusOfRecord

/-- Settles O56, by the outputs of each kind of error record. -/
theorem statusOutputsEncodeTheRecord : Obligations.StatusOutputsEncodeTheRecord := by
  intro s
  refine ⟨?_, s.status_pc, fun h => ?_, fun op h => ?_, fun op n k h => ?_, fun op role v h => ?_⟩
  · rw [State.status_state]
    cases s.run <;> rfl
  · rw [State.status_of_no_error h]
  · rw [State.status_of_unrecognized h]
  · rw [State.status_of_truncated h, BitVec.ofNat_toNat, BitVec.ofNat_toNat, BitVec.setWidth_eq, BitVec.setWidth_eq]
  · rw [State.status_of_illegalRegister h]
    cases role <;> rfl

/-- The error record that the status outputs report, read by the codes of R194. -/
def Status.record (st : Status) : Option FatalError :=
  match st.errCode with
  | 1 => some (.unrecognizedOpcode st.errOp)
  | 2 => some (.truncated st.errOp st.errRequired.toNat st.errRemaining.toNat)
  | 3 => (roleOfCode st.errRole).map fun role => .illegalRegister st.errOp role st.errValue
  | _ => none

/-- A recorded truncation fits the 3 bits of its two outputs (R39, R194). -/
theorem recordShape_truncated_lt {op : Byte} {n k : Nat} (h : recordShape (.truncated op n k) = true) :
    n < 8 ∧ k < 8 := by
  simp [recordShape] at h
  omega

/-- The status outputs lose nothing of a record with the shape of R39. -/
theorem record_status {s : State} (hshape : ∀ e, s.err = some e → recordShape e = true) :
    s.status.record = s.err := by
  cases herr : s.err with
  | none => rw [State.status_of_no_error herr]; rfl
  | some e =>
      cases e with
      | unrecognizedOpcode op => rw [State.status_of_unrecognized herr]; rfl
      | truncated op n k =>
          obtain ⟨hn, hk⟩ := recordShape_truncated_lt (hshape _ herr)
          rw [State.status_of_truncated herr]
          simp [Status.record, Nat.mod_eq_of_lt hn, Nat.mod_eq_of_lt hk]
      | illegalRegister op role v =>
          rw [State.status_of_illegalRegister herr]
          simp [Status.record, roleOfCode_roleCode]

theorem RunState.code_injective {r q : RunState} (h : r.code = q.code) : r = q := by
  revert h; cases r <;> cases q <;> decide

/-- Settles O55: the run state by its code, and the error record read back by `record_status`, since an allowed state
records what a fetch raised (O7). -/
theorem statusOutputsDetermineTheError : Obligations.StatusOutputsDetermineTheError := by
  intro s t hs ht hstatus
  have hrecord : ∀ {u : State}, u.Inv → u.status.record = u.err := fun {u} hu =>
    record_status fun e he => raisedErrorsHaveTheRecordedShape u e (hu.errHere e he)
  refine ⟨RunState.code_injective ?_, ?_, ?_⟩
  · rw [← s.status_state, hstatus, t.status_state]
  · rw [← s.status_pc, hstatus, t.status_pc]
  · rw [← hrecord hs, hstatus, hrecord ht]

/-! ## The host during a run -/

theorem hostInspect_of_running {s : State} (h : s.run = .running) (i : RegIdx) :
    hostInspect i s = .error .inspectWhileRunning := by
  rw [hostInspect, h]

theorem hostReadStatus_of_running {s : State} (h : s.run = .running) :
    hostReadStatus s = .error .inspectWhileRunning := by
  rw [hostReadStatus, h]

/-- Settles O53: both moves are moves between runs, and so are both reads. -/
theorem hostDutiesAreRefusedWhileRunning : Obligations.HostDutiesAreRefusedWhileRunning :=
  fun _ i _ h => ⟨betweenRuns_running h, betweenRuns_running h, hostInspect_of_running h i, hostReadStatus_of_running h⟩

/-- Every move of the host is one it has between runs only (R201, R228). -/
theorem hostMove_eq_betweenRuns (m : HostMove) (s : State) : ∃ r t, hostMove m s = betweenRuns r t s := by
  cases m with
  | por => exact ⟨.porWhileRunning, State.reset, rfl⟩
  | start bs => exact ⟨.startWhileRunning, s.started bs, rfl⟩

/-- Settles O59, by `hostMove_eq_betweenRuns`. -/
theorem noHostMoveStopsARun : Obligations.NoHostMoveStopsARun := by
  intro m s
  obtain ⟨r, t, hmove⟩ := hostMove_eq_betweenRuns m s
  rw [hmove]
  exact ⟨fun h => ⟨r, betweenRuns_running h⟩, fun h => ⟨t, betweenRuns_next_iff.mpr ⟨h, rfl⟩⟩⟩

end Sys2Proof.Machine
end

section
/-! SUPPORT. The state after construction (70_reset_and_hazards.md): its slots on the inspection port, and the host's
`por` that leads to it. -/

namespace Sys2Proof.Machine

/-- R30, R45, R220: each of the eleven slots holds 0 after construction. -/
theorem inspectPort_reset {i : RegIdx} (h : i.toNat ≤ 10) : inspectPort State.reset.regs i = some 0 := by
  have hslot : i.toNat < Config.numSlots := Nat.lt_succ_of_le h
  simp [inspectPort, State.reset, hslot]

/-- R220, R221: `por` between runs constructs the core anew, whatever state it was in. -/
theorem hostPor_of_not_running {s : State} (h : s.run ≠ .running) : hostPor s = .next State.reset :=
  betweenRuns_next_iff.mpr ⟨h, rfl⟩

/-- Settles O51: the slots by `inspectPort_reset`, the other fields as construction sets them, and `por` by
`hostPor_of_not_running`. -/
theorem constructionClearsEverything : Obligations.ConstructionClearsEverything :=
  ⟨fun _ => inspectPort_reset, rfl, rfl, rfl, rfl, fun _ => hostPor_of_not_running⟩

end Sys2Proof.Machine
end
